-- ==== Sys2Proof/Word.lean ====
section
/-! DEFINITION. The machine's word types (spec 00_scope.md rules R6, R8, R9). Every value of this machine is unsigned
(rule R8), so no signed reading of any of these types is used anywhere in the model. -/

namespace Sys2Proof

/-- An 8-bit value: a general register, a timer, a byte of memory, the immediate `kk`. -/
abbrev Byte := BitVec 8

/-- A 16-bit value: the index register, the program counter, a stack entry, an instruction word. -/
abbrev Word := BitVec 16

/-- A 4-bit register field (`x` or `y`): every value names one of the sixteen registers (rule R20). -/
abbrev Reg := BitVec 4

/-- The 4-bit immediate `n` (rule R71). -/
abbrev Nibble := BitVec 4

/-- The 12-bit immediate `nnn` (rule R71). -/
abbrev Imm12 := BitVec 12

/-- `VF`, the register that doubles as the flag (rule R21). -/
abbrev vf : Reg := 15#4

end Sys2Proof
end

