-- ==== Sys2Proof/Syntax.lean ====
section
/-! DEFINITION. The instructions as data: one constructor of `Instr` per row of spec/opcode_table.json, in the table's
order (spec 30_encoding.md rules R72, R74), and the spec's written form of an instruction, `mnemonic` and operands
(rule R78). The operand types are exactly as wide as the encoding's fields (rule R71), so an `Instr` cannot name a
register that does not exist or hold an immediate that does not fit; the checks a written line has to pass are in
Sys2Proof/WellFormed.lean. An unrecognized word is no instruction of the table (rule R75): the decoder answers `unknown`. -/

namespace Sys2Proof

/-- The 34 instructions of rule R74. `shr` and `shl` keep the `y` nibble of their word as an extra operand that nothing
reads (rules R76, R82), so that encoding loses no bit. -/
inductive Instr where
  /-- `clear`, format Z, word `0000000011100000` (rule R163). -/
  | clear
  /-- `return`, format Z, word `0000000011101110` (rule R100). -/
  | ret
  /-- `jump`, format A, word `0001nnnnnnnnnnnn` (rule R101). -/
  | jump (nnn : Imm12)
  /-- `call`, format A, word `0010nnnnnnnnnnnn` (rule R102). -/
  | call (nnn : Imm12)
  /-- `skip-eq-imm`, format XK, word `0011xxxxkkkkkkkk` (rule R103). -/
  | skipEqImm (x : Reg) (kk : Byte)
  /-- `skip-ne-imm`, format XK, word `0100xxxxkkkkkkkk` (rule R104). -/
  | skipNeImm (x : Reg) (kk : Byte)
  /-- `skip-eq-reg`, format XY, word `0101xxxxyyyy0000` (rule R105). -/
  | skipEqReg (x y : Reg)
  /-- `load-imm`, format XK, word `0110xxxxkkkkkkkk` (rule R121). -/
  | loadImm (x : Reg) (kk : Byte)
  /-- `add-imm`, format XK, word `0111xxxxkkkkkkkk` (rule R122). -/
  | addImm (x : Reg) (kk : Byte)
  /-- `move`, format XY, word `1000xxxxyyyy0000` (rule R123). -/
  | move (x y : Reg)
  /-- `or`, format XY, word `1000xxxxyyyy0001` (rule R124). -/
  | or (x y : Reg)
  /-- `and`, format XY, word `1000xxxxyyyy0010` (rule R125). -/
  | and (x y : Reg)
  /-- `xor`, format XY, word `1000xxxxyyyy0011` (rule R126). -/
  | xor (x y : Reg)
  /-- `add`, format XY, word `1000xxxxyyyy0100` (rule R127). -/
  | add (x y : Reg)
  /-- `sub`, format XY, word `1000xxxxyyyy0101` (rule R128). -/
  | sub (x y : Reg)
  /-- `shr`, format XS, word `1000xxxxyyyy0110` (rule R129). -/
  | shr (x y : Reg)
  /-- `subn`, format XY, word `1000xxxxyyyy0111` (rule R130). -/
  | subn (x y : Reg)
  /-- `shl`, format XS, word `1000xxxxyyyy1110` (rule R131). -/
  | shl (x y : Reg)
  /-- `skip-ne-reg`, format XY, word `1001xxxxyyyy0000` (rule R106). -/
  | skipNeReg (x y : Reg)
  /-- `load-index`, format A, word `1010nnnnnnnnnnnn` (rule R140). -/
  | loadIndex (nnn : Imm12)
  /-- `jump-offset`, format A, word `1011nnnnnnnnnnnn` (rule R107). -/
  | jumpOffset (nnn : Imm12)
  /-- `rand`, format XK, word `1100xxxxkkkkkkkk` (rule R132). -/
  | rand (x : Reg) (kk : Byte)
  /-- `draw`, format XYN, word `1101xxxxyyyynnnn` (rule R164). -/
  | draw (x y : Reg) (n : Nibble)
  /-- `skip-key`, format X, word `1110xxxx10011110` (rule R180). -/
  | skipKey (x : Reg)
  /-- `skip-nokey`, format X, word `1110xxxx10100001` (rule R181). -/
  | skipNokey (x : Reg)
  /-- `load-delay`, format X, word `1111xxxx00000111` (rule R183). -/
  | loadDelay (x : Reg)
  /-- `wait-key`, format X, word `1111xxxx00001010` (rule R182). -/
  | waitKey (x : Reg)
  /-- `set-delay`, format X, word `1111xxxx00010101` (rule R184). -/
  | setDelay (x : Reg)
  /-- `set-sound`, format X, word `1111xxxx00011000` (rule R185). -/
  | setSound (x : Reg)
  /-- `add-index`, format X, word `1111xxxx00011110` (rule R141). -/
  | addIndex (x : Reg)
  /-- `font-addr`, format X, word `1111xxxx00101001` (rule R142). -/
  | fontAddr (x : Reg)
  /-- `bcd`, format X, word `1111xxxx00110011` (rule R143). -/
  | bcd (x : Reg)
  /-- `store-regs`, format X, word `1111xxxx01010101` (rule R144). -/
  | storeRegs (x : Reg)
  /-- `load-regs`, format X, word `1111xxxx01100101` (rule R145). -/
  | loadRegs (x : Reg)
deriving DecidableEq, Repr

/-- The instruction formats of rule R72. -/
inductive Format where
  | z | a | xk | xy | xs | xyn | x
deriving DecidableEq, Repr

/-- The mnemonics of rule R74, the spec's names of the 34 instructions. -/
inductive Mnemonic where
  | clear | ret | jump | call | skipEqImm | skipNeImm | skipEqReg | loadImm | addImm
  | move | or | and | xor | add | sub | shr | subn | shl
  | skipNeReg | loadIndex | jumpOffset | rand | draw | skipKey | skipNokey | loadDelay | waitKey
  | setDelay | setSound | addIndex | fontAddr | bcd | storeRegs | loadRegs
deriving DecidableEq, Repr

/-- The mnemonic as the spec spells it (rule R78, decision D19). -/
def Mnemonic.name : Mnemonic → String
  | .clear => "clear"
  | .ret => "return"
  | .jump => "jump"
  | .call => "call"
  | .skipEqImm => "skip-eq-imm"
  | .skipNeImm => "skip-ne-imm"
  | .skipEqReg => "skip-eq-reg"
  | .loadImm => "load-imm"
  | .addImm => "add-imm"
  | .move => "move"
  | .or => "or"
  | .and => "and"
  | .xor => "xor"
  | .add => "add"
  | .sub => "sub"
  | .shr => "shr"
  | .subn => "subn"
  | .shl => "shl"
  | .skipNeReg => "skip-ne-reg"
  | .loadIndex => "load-index"
  | .jumpOffset => "jump-offset"
  | .rand => "rand"
  | .draw => "draw"
  | .skipKey => "skip-key"
  | .skipNokey => "skip-nokey"
  | .loadDelay => "load-delay"
  | .waitKey => "wait-key"
  | .setDelay => "set-delay"
  | .setSound => "set-sound"
  | .addIndex => "add-index"
  | .fontAddr => "font-addr"
  | .bcd => "bcd"
  | .storeRegs => "store-regs"
  | .loadRegs => "load-regs"

/-- The format of an instruction (rule R72). -/
def Mnemonic.format : Mnemonic → Format
  | .clear | .ret => .z
  | .jump | .call | .loadIndex | .jumpOffset => .a
  | .skipEqImm | .skipNeImm | .loadImm | .addImm | .rand => .xk
  | .skipEqReg | .move | .or | .and | .xor | .add
  | .sub | .subn | .skipNeReg => .xy
  | .shr | .shl => .xs
  | .draw => .xyn
  | .skipKey | .skipNokey | .loadDelay | .waitKey | .setDelay | .setSound
  | .addIndex | .fontAddr | .bcd | .storeRegs | .loadRegs => .x

/-- The mnemonic of an instruction. -/
def Instr.mnemonic : Instr → Mnemonic
  | .clear => .clear
  | .ret => .ret
  | .jump _ => .jump
  | .call _ => .call
  | .skipEqImm _ _ => .skipEqImm
  | .skipNeImm _ _ => .skipNeImm
  | .skipEqReg _ _ => .skipEqReg
  | .loadImm _ _ => .loadImm
  | .addImm _ _ => .addImm
  | .move _ _ => .move
  | .or _ _ => .or
  | .and _ _ => .and
  | .xor _ _ => .xor
  | .add _ _ => .add
  | .sub _ _ => .sub
  | .shr _ _ => .shr
  | .subn _ _ => .subn
  | .shl _ _ => .shl
  | .skipNeReg _ _ => .skipNeReg
  | .loadIndex _ => .loadIndex
  | .jumpOffset _ => .jumpOffset
  | .rand _ _ => .rand
  | .draw _ _ _ => .draw
  | .skipKey _ => .skipKey
  | .skipNokey _ => .skipNokey
  | .loadDelay _ => .loadDelay
  | .waitKey _ => .waitKey
  | .setDelay _ => .setDelay
  | .setSound _ => .setSound
  | .addIndex _ => .addIndex
  | .fontAddr _ => .fontAddr
  | .bcd _ => .bcd
  | .storeRegs _ => .storeRegs
  | .loadRegs _ => .loadRegs

/-- A written operand (rule R78): a register `V0` to `VF`, or a number. A written line may hold any number; which lines are
instructions is decided by `Line.wellFormed`. -/
inductive Operand where
  | reg (index : Nat)
  | imm (value : Nat)
deriving DecidableEq, Repr

/-- A written instruction: "`mnemonic` followed by a space and the operands separated by commas" (rule R78). -/
structure Line where
  mnemonic : Mnemonic
  operands : List Operand
deriving DecidableEq, Repr

/-- The operands of an instruction in the order the spec writes them. `shr` and `shl` take one operand: their `y` nibble is
not written (rule R78). -/
def Instr.operands : Instr → List Operand
  | .clear => []
  | .ret => []
  | .jump nnn => [.imm nnn.toNat]
  | .call nnn => [.imm nnn.toNat]
  | .skipEqImm x kk => [.reg x.toNat, .imm kk.toNat]
  | .skipNeImm x kk => [.reg x.toNat, .imm kk.toNat]
  | .skipEqReg x y => [.reg x.toNat, .reg y.toNat]
  | .loadImm x kk => [.reg x.toNat, .imm kk.toNat]
  | .addImm x kk => [.reg x.toNat, .imm kk.toNat]
  | .move x y => [.reg x.toNat, .reg y.toNat]
  | .or x y => [.reg x.toNat, .reg y.toNat]
  | .and x y => [.reg x.toNat, .reg y.toNat]
  | .xor x y => [.reg x.toNat, .reg y.toNat]
  | .add x y => [.reg x.toNat, .reg y.toNat]
  | .sub x y => [.reg x.toNat, .reg y.toNat]
  | .shr x _ => [.reg x.toNat]
  | .subn x y => [.reg x.toNat, .reg y.toNat]
  | .shl x _ => [.reg x.toNat]
  | .skipNeReg x y => [.reg x.toNat, .reg y.toNat]
  | .loadIndex nnn => [.imm nnn.toNat]
  | .jumpOffset nnn => [.imm nnn.toNat]
  | .rand x kk => [.reg x.toNat, .imm kk.toNat]
  | .draw x y n => [.reg x.toNat, .reg y.toNat, .imm n.toNat]
  | .skipKey x => [.reg x.toNat]
  | .skipNokey x => [.reg x.toNat]
  | .loadDelay x => [.reg x.toNat]
  | .waitKey x => [.reg x.toNat]
  | .setDelay x => [.reg x.toNat]
  | .setSound x => [.reg x.toNat]
  | .addIndex x => [.reg x.toNat]
  | .fontAddr x => [.reg x.toNat]
  | .bcd x => [.reg x.toNat]
  | .storeRegs x => [.reg x.toNat]
  | .loadRegs x => [.reg x.toNat]

/-- The written form of an instruction. -/
def Instr.toLine (i : Instr) : Line := ⟨i.mnemonic, i.operands⟩

/-- One hexadecimal digit, as the spec's listings write it. -/
def hexDigit (d : Nat) : Char :=
  ['0', '1', '2', '3', '4', '5', '6', '7', '8', '9', 'A', 'B', 'C', 'D', 'E', 'F'].getD (d % 16) '0'

/-- `v` as `digits` hexadecimal digits, without `0x` (rule R78). -/
def hexText (digits v : Nat) : String :=
  String.ofList ((List.range digits).map fun k => hexDigit (v / 16 ^ (digits - 1 - k)))

/-- How many digits a number of a format is written with: `nnn` three, `kk` two, `n` one (rule R78). -/
def Format.immDigits : Format → Nat
  | .a => 3
  | .xk => 2
  | .xyn => 1
  | .z | .xy | .xs | .x => 0

/-- The text of one operand. -/
def Operand.text (digits : Nat) : Operand → String
  | .reg k => "V" ++ hexText 1 k
  | .imm v => hexText digits v

/-- The text of a line (rule R78): `load-imm V3,7F`, `jump 20A`, `draw V0,V1,5`. -/
def Line.text (l : Line) : String :=
  match l.operands with
  | [] => l.mnemonic.name
  | o :: os =>
    os.foldl (fun t p => t ++ "," ++ p.text l.mnemonic.format.immDigits)
      (l.mnemonic.name ++ " " ++ o.text l.mnemonic.format.immDigits)

/-- A data byte of a listing, `byte HH` (rule R78). -/
def dataByteText (b : Byte) : String := "byte " ++ hexText 2 b.toNat

end Sys2Proof
end

