-- ==== Sys2Proof/WellFormed.lean ====
section
/-! DEFINITION. Which written lines are instructions (spec 30_encoding.md rules R72, R73, R78, R79). The types of
`Instr` already keep every field in range, so there is nothing left to check on an `Instr` itself; what can be ill-formed
is a written line: a wrong number or kind of operands for the mnemonic's format, a register index above 15, an immediate
that does not fit its field. `Line.assemble` reads exactly the well-formed lines. There are no pseudo-instructions
(rule R79): a line's mnemonic is one of the 34. -/

namespace Sys2Proof

/-- A register operand of a well-formed line: `V0` to `VF` (rule R20). -/
def Operand.isReg : Operand → Bool
  | .reg k => decide (k < 16)
  | .imm _ => false

/-- An immediate operand of a well-formed line: an unsigned number that fits a field of `width` bits (rule R73). -/
def Operand.isImm (width : Nat) : Operand → Bool
  | .reg _ => false
  | .imm v => decide (v < 2 ^ width)

/-- The operands a format takes, in the order they are written (rules R72, R78). -/
def Format.accepts : Format → List Operand → Bool
  | .z, [] => true
  | .a, [o] => o.isImm 12
  | .xk, [o, p] => o.isReg && p.isImm 8
  | .xy, [o, p] => o.isReg && p.isReg
  | .xs, [o] => o.isReg
  | .xyn, [o, p, q] => o.isReg && p.isReg && q.isImm 4
  | .x, [o] => o.isReg
  | _, _ => false

/-- A line is well formed when its operands are those of its mnemonic's format. -/
def Line.wellFormed (l : Line) : Bool := l.mnemonic.format.accepts l.operands

/-- The register an operand names. -/
def Operand.toReg : Operand → Reg
  | .reg k => BitVec.ofNat 4 k
  | .imm v => BitVec.ofNat 4 v

/-- The number an operand holds. -/
def Operand.toImm (width : Nat) : Operand → BitVec width
  | .reg k => BitVec.ofNat width k
  | .imm v => BitVec.ofNat width v

/-- The instruction a mnemonic and the operands `o`, `p`, `q` make; an operand the format does not take is not looked at.
The ignored `y` nibble of `shr` and `shl` is 0 (rule R78). -/
def Mnemonic.build (m : Mnemonic) (o p q : Operand) : Instr :=
  match m with
  | .clear => .clear
  | .ret => .ret
  | .jump => .jump (o.toImm 12)
  | .call => .call (o.toImm 12)
  | .skipEqImm => .skipEqImm o.toReg (p.toImm 8)
  | .skipNeImm => .skipNeImm o.toReg (p.toImm 8)
  | .skipEqReg => .skipEqReg o.toReg p.toReg
  | .loadImm => .loadImm o.toReg (p.toImm 8)
  | .addImm => .addImm o.toReg (p.toImm 8)
  | .move => .move o.toReg p.toReg
  | .or => .or o.toReg p.toReg
  | .and => .and o.toReg p.toReg
  | .xor => .xor o.toReg p.toReg
  | .add => .add o.toReg p.toReg
  | .sub => .sub o.toReg p.toReg
  | .shr => .shr o.toReg 0#4
  | .subn => .subn o.toReg p.toReg
  | .shl => .shl o.toReg 0#4
  | .skipNeReg => .skipNeReg o.toReg p.toReg
  | .loadIndex => .loadIndex (o.toImm 12)
  | .jumpOffset => .jumpOffset (o.toImm 12)
  | .rand => .rand o.toReg (p.toImm 8)
  | .draw => .draw o.toReg p.toReg (q.toImm 4)
  | .skipKey => .skipKey o.toReg
  | .skipNokey => .skipNokey o.toReg
  | .loadDelay => .loadDelay o.toReg
  | .waitKey => .waitKey o.toReg
  | .setDelay => .setDelay o.toReg
  | .setSound => .setSound o.toReg
  | .addIndex => .addIndex o.toReg
  | .fontAddr => .fontAddr o.toReg
  | .bcd => .bcd o.toReg
  | .storeRegs => .storeRegs o.toReg
  | .loadRegs => .loadRegs o.toReg

/-- The instruction a written line stands for; nothing where the line is ill-formed. -/
def Line.assemble (l : Line) : Option Instr :=
  if l.wellFormed then
    some (l.mnemonic.build (l.operands.getD 0 (.imm 0)) (l.operands.getD 1 (.imm 0)) (l.operands.getD 2 (.imm 0)))
  else none

/-- An instruction is well formed when its written form is. Every `Instr` is (its fields cannot be out of range):
`Sys2Proof.Laws.WrittenForm` proves it constructor by constructor. -/
def Instr.wellFormed (i : Instr) : Bool := i.toLine.wellFormed

/-- The instruction that the spec's assembler writes for `i`: `i` itself, with the ignored `y` nibble of `shr` and `shl`
set to 0 (rules R78, R82). -/
def Instr.canonical : Instr → Instr
  | .shr x _ => .shr x 0#4
  | .shl x _ => .shl x 0#4
  | i => i

end Sys2Proof
end

