-- ==== Sys2Proof/Decode.lean ====
section
/-! DEFINITION. From bits to instructions and back (spec 30_encoding.md). `decodeWord` is total: every word is an
instruction or `unknown` (rule R80). It reads only the word (rule R77). `encode` is written from the same rules (R71, R72,
R74, R82). All opcode numbers and field positions are the spec's own choice (decisions D4, D5): log entry 8. -/

namespace Sys2Proof

/-- What the decoder answers (rule R80): one of the 34 instructions, or `unknown` with the word. -/
inductive Decoded where
  | instr (i : Instr)
  | unknown (w : Word)
deriving DecidableEq, Repr

/-- `nibble1 = w[15:12]` (rule R71). -/
def fieldOp (w : Word) : BitVec 4 := w.extractLsb' 12 4
/-- `x = w[11:8]` (rule R71). -/
def fieldX (w : Word) : Reg := w.extractLsb' 8 4
/-- `y = w[7:4]` (rule R71). -/
def fieldY (w : Word) : Reg := w.extractLsb' 4 4
/-- `nibble4 = n = w[3:0]` (rule R71). -/
def fieldN (w : Word) : Nibble := w.extractLsb' 0 4
/-- `kk = w[7:0]` (rule R71). -/
def fieldKK (w : Word) : Byte := w.extractLsb' 0 8
/-- `nnn = w[11:0]` (rule R71). -/
def fieldNNN (w : Word) : Imm12 := w.extractLsb' 0 12

/-- `nibble1 = 0`: `clear` and `return`, by the whole word (rules R74, R76). -/
def decode0 (w : Word) : Decoded :=
  if w = 0x00E0#16 then .instr .clear
  else if w = 0x00EE#16 then .instr .ret
  else .unknown w

/-- `nibble1 = 8`: the register and ALU operations, by `nibble4` (rule R74). -/
def decode8 (w : Word) : Decoded :=
  match (fieldN w).toNat with
  | 0x0 => .instr (.move (fieldX w) (fieldY w))
  | 0x1 => .instr (.or (fieldX w) (fieldY w))
  | 0x2 => .instr (.and (fieldX w) (fieldY w))
  | 0x3 => .instr (.xor (fieldX w) (fieldY w))
  | 0x4 => .instr (.add (fieldX w) (fieldY w))
  | 0x5 => .instr (.sub (fieldX w) (fieldY w))
  | 0x6 => .instr (.shr (fieldX w) (fieldY w))
  | 0x7 => .instr (.subn (fieldX w) (fieldY w))
  | 0xE => .instr (.shl (fieldX w) (fieldY w))
  | _ => .unknown w

/-- `nibble1 = E`: the key tests, by the whole low byte (rules R74, R76). -/
def decodeE (w : Word) : Decoded :=
  match (fieldKK w).toNat with
  | 0x9E => .instr (.skipKey (fieldX w))
  | 0xA1 => .instr (.skipNokey (fieldX w))
  | _ => .unknown w

/-- `nibble1 = F`: key wait, timers, index and memory, by the whole low byte (rules R74, R76). -/
def decodeF (w : Word) : Decoded :=
  match (fieldKK w).toNat with
  | 0x07 => .instr (.loadDelay (fieldX w))
  | 0x0A => .instr (.waitKey (fieldX w))
  | 0x15 => .instr (.setDelay (fieldX w))
  | 0x18 => .instr (.setSound (fieldX w))
  | 0x1E => .instr (.addIndex (fieldX w))
  | 0x29 => .instr (.fontAddr (fieldX w))
  | 0x33 => .instr (.bcd (fieldX w))
  | 0x55 => .instr (.storeRegs (fieldX w))
  | 0x65 => .instr (.loadRegs (fieldX w))
  | _ => .unknown w

/-- The decoder (rules R74, R75, R80): dispatch on `nibble1`, as rule R74's prose map does. -/
def decodeWord (w : Word) : Decoded :=
  match (fieldOp w).toNat with
  | 0x0 => decode0 w
  | 0x1 => .instr (.jump (fieldNNN w))
  | 0x2 => .instr (.call (fieldNNN w))
  | 0x3 => .instr (.skipEqImm (fieldX w) (fieldKK w))
  | 0x4 => .instr (.skipNeImm (fieldX w) (fieldKK w))
  | 0x5 => if fieldN w = 0#4 then .instr (.skipEqReg (fieldX w) (fieldY w)) else .unknown w
  | 0x6 => .instr (.loadImm (fieldX w) (fieldKK w))
  | 0x7 => .instr (.addImm (fieldX w) (fieldKK w))
  | 0x8 => decode8 w
  | 0x9 => if fieldN w = 0#4 then .instr (.skipNeReg (fieldX w) (fieldY w)) else .unknown w
  | 0xA => .instr (.loadIndex (fieldNNN w))
  | 0xB => .instr (.jumpOffset (fieldNNN w))
  | 0xC => .instr (.rand (fieldX w) (fieldKK w))
  | 0xD => .instr (.draw (fieldX w) (fieldY w) (fieldN w))
  | 0xE => decodeE w
  | 0xF => decodeF w
  | _ => .unknown w

/-- `x` in its place, bits 11:8 (rules R71, R82). -/
def placeX (x : Reg) : Word := x.setWidth 16 <<< 8
/-- `y` in its place, bits 7:4. -/
def placeY (y : Reg) : Word := y.setWidth 16 <<< 4
/-- `n` in its place, bits 3:0. -/
def placeN (n : Nibble) : Word := n.setWidth 16
/-- `kk` in its place, bits 7:0. -/
def placeKK (kk : Byte) : Word := kk.setWidth 16
/-- `nnn` in its place, bits 11:0. -/
def placeNNN (nnn : Imm12) : Word := nnn.setWidth 16

/-- The encoder (rule R82): "the word of an instruction is its `match` value OR-ed with its operand fields placed as in
rule R71". -/
def encode : Instr → Word
  | .clear => 0x00E0#16
  | .ret => 0x00EE#16
  | .jump nnn => 0x1000#16 ||| placeNNN nnn
  | .call nnn => 0x2000#16 ||| placeNNN nnn
  | .skipEqImm x kk => 0x3000#16 ||| placeX x ||| placeKK kk
  | .skipNeImm x kk => 0x4000#16 ||| placeX x ||| placeKK kk
  | .skipEqReg x y => 0x5000#16 ||| placeX x ||| placeY y
  | .loadImm x kk => 0x6000#16 ||| placeX x ||| placeKK kk
  | .addImm x kk => 0x7000#16 ||| placeX x ||| placeKK kk
  | .move x y => 0x8000#16 ||| placeX x ||| placeY y
  | .or x y => 0x8001#16 ||| placeX x ||| placeY y
  | .and x y => 0x8002#16 ||| placeX x ||| placeY y
  | .xor x y => 0x8003#16 ||| placeX x ||| placeY y
  | .add x y => 0x8004#16 ||| placeX x ||| placeY y
  | .sub x y => 0x8005#16 ||| placeX x ||| placeY y
  | .shr x y => 0x8006#16 ||| placeX x ||| placeY y
  | .subn x y => 0x8007#16 ||| placeX x ||| placeY y
  | .shl x y => 0x800E#16 ||| placeX x ||| placeY y
  | .skipNeReg x y => 0x9000#16 ||| placeX x ||| placeY y
  | .loadIndex nnn => 0xA000#16 ||| placeNNN nnn
  | .jumpOffset nnn => 0xB000#16 ||| placeNNN nnn
  | .rand x kk => 0xC000#16 ||| placeX x ||| placeKK kk
  | .draw x y n => 0xD000#16 ||| placeX x ||| placeY y ||| placeN n
  | .skipKey x => 0xE09E#16 ||| placeX x
  | .skipNokey x => 0xE0A1#16 ||| placeX x
  | .loadDelay x => 0xF007#16 ||| placeX x
  | .waitKey x => 0xF00A#16 ||| placeX x
  | .setDelay x => 0xF015#16 ||| placeX x
  | .setSound x => 0xF018#16 ||| placeX x
  | .addIndex x => 0xF01E#16 ||| placeX x
  | .fontAddr x => 0xF029#16 ||| placeX x
  | .bcd x => 0xF033#16 ||| placeX x
  | .storeRegs x => 0xF055#16 ||| placeX x
  | .loadRegs x => 0xF065#16 ||| placeX x

/-- The byte of a word at the lower address, the high byte (rule R52). -/
def highByte (w : Word) : Byte := w.extractLsb' 8 8
/-- The byte of a word at the higher address, the low byte (rule R52). -/
def lowByte (w : Word) : Byte := w.extractLsb' 0 8
/-- The big-endian word of two bytes: `w = hi * 256 + lo` (rule R52). -/
def wordOfBytes (hi lo : Byte) : Word := hi ++ lo

/-- The two bytes an instruction is stored as, the high byte first (rule R70). -/
def encodeBytes (i : Instr) : List Byte := [highByte (encode i), lowByte (encode i)]

/-- Why a list of bytes holds no instruction. -/
inductive DecodeRefusal where
  /-- fewer than two bytes: no instruction word is there to read (rule R70). Safe. -/
  | tooFewBytes
  /-- the word matches no row of rule R74. The machine runs it as a no-operation (rule R95). -/
  | unrecognized (w : Word)
deriving DecidableEq, Repr

/-- The instruction at the head of a list of bytes, with the bytes after it (rules R52, R70): every instruction is exactly
two bytes. Total on any bytes. -/
def decodeBytes : List Byte → Except DecodeRefusal (Instr × List Byte)
  | hi :: lo :: rest =>
    match decodeWord (wordOfBytes hi lo) with
    | .instr i => .ok (i, rest)
    | .unknown w => .error (.unrecognized w)
  | _ => .error .tooFewBytes

/-- The instruction the decoder reads from the word `w` of a row of spec/opcode_table.json, laid out big-endian as the
hardware stores it (rule R52). Every row has 16 bits; a bit above `nbits` is 0. -/
def decodeTableWord (nbits w : Nat) : Option Instr :=
  let word := BitVec.ofNat 16 (w % 2 ^ nbits)
  match decodeBytes [highByte word, lowByte word] with
  | .ok (i, _) => some i
  | .error _ => none

/-- The text of a word in a listing (rule R78): its instruction, or `unknown HHHH`. -/
def disassemble (w : Word) : String :=
  match decodeWord w with
  | .instr i => i.toLine.text
  | .unknown u => "unknown " ++ hexText 4 u.toNat

/-- One row of the opcode map (rule R74). -/
structure Row where
  mnemonic : Mnemonic
  mask : Word
  pattern : Word
deriving DecidableEq, Repr

/-- A word selects a row when its fixed bits are the row's (rule R74): `(w & mask) == match`. -/
def Row.selects (r : Row) (w : Word) : Bool := w &&& r.mask == r.pattern

/-- The opcode map of rule R74, rows clear to and. -/
def opcodeRows1 : List Row :=
  [⟨.clear, 0xFFFF#16, 0x00E0#16⟩,
   ⟨.ret, 0xFFFF#16, 0x00EE#16⟩,
   ⟨.jump, 0xF000#16, 0x1000#16⟩,
   ⟨.call, 0xF000#16, 0x2000#16⟩,
   ⟨.skipEqImm, 0xF000#16, 0x3000#16⟩,
   ⟨.skipNeImm, 0xF000#16, 0x4000#16⟩,
   ⟨.skipEqReg, 0xF00F#16, 0x5000#16⟩,
   ⟨.loadImm, 0xF000#16, 0x6000#16⟩,
   ⟨.addImm, 0xF000#16, 0x7000#16⟩,
   ⟨.move, 0xF00F#16, 0x8000#16⟩,
   ⟨.or, 0xF00F#16, 0x8001#16⟩,
   ⟨.and, 0xF00F#16, 0x8002#16⟩]

/-- The opcode map of rule R74, rows xor to draw. -/
def opcodeRows2 : List Row :=
  [⟨.xor, 0xF00F#16, 0x8003#16⟩,
   ⟨.add, 0xF00F#16, 0x8004#16⟩,
   ⟨.sub, 0xF00F#16, 0x8005#16⟩,
   ⟨.shr, 0xF00F#16, 0x8006#16⟩,
   ⟨.subn, 0xF00F#16, 0x8007#16⟩,
   ⟨.shl, 0xF00F#16, 0x800E#16⟩,
   ⟨.skipNeReg, 0xF00F#16, 0x9000#16⟩,
   ⟨.loadIndex, 0xF000#16, 0xA000#16⟩,
   ⟨.jumpOffset, 0xF000#16, 0xB000#16⟩,
   ⟨.rand, 0xF000#16, 0xC000#16⟩,
   ⟨.draw, 0xF000#16, 0xD000#16⟩]

/-- The opcode map of rule R74, rows skip-key to load-regs. -/
def opcodeRows3 : List Row :=
  [⟨.skipKey, 0xF0FF#16, 0xE09E#16⟩,
   ⟨.skipNokey, 0xF0FF#16, 0xE0A1#16⟩,
   ⟨.loadDelay, 0xF0FF#16, 0xF007#16⟩,
   ⟨.waitKey, 0xF0FF#16, 0xF00A#16⟩,
   ⟨.setDelay, 0xF0FF#16, 0xF015#16⟩,
   ⟨.setSound, 0xF0FF#16, 0xF018#16⟩,
   ⟨.addIndex, 0xF0FF#16, 0xF01E#16⟩,
   ⟨.fontAddr, 0xF0FF#16, 0xF029#16⟩,
   ⟨.bcd, 0xF0FF#16, 0xF033#16⟩,
   ⟨.storeRegs, 0xF0FF#16, 0xF055#16⟩,
   ⟨.loadRegs, 0xF0FF#16, 0xF065#16⟩]

/-- The opcode map of rule R74, all 34 rows in the table's order. -/
def opcodeTable : List Row := opcodeRows1 ++ opcodeRows2 ++ opcodeRows3

end Sys2Proof
end

