-- ==== Sys2Proof/Config.lean ====
section
/-! DEFINITION. What is fixed for one machine: the parameters the source fixes (spec 00_scope.md rule R6), the
parameters it leaves open (rule R7), which a machine is built with and no command changes, and the one free value of the
model, the host's random byte (rules R90, R93, R132). The DEFAULT values of the open parameters are in
Sys2Proof/Machine/Params.lean. -/

namespace Sys2Proof

/-- The open parameters of rule R7: the display's width `W` and height `H`, and the 80-byte font table. A state carries the
configuration it was built with, so a claim about every state is a claim about every admissible `W`, `H` and font.
`TICK_RATE`, the fourth open parameter, has no value in a model without time (decision D18). -/
structure Config where
  width  : Nat
  height : Nat
  font   : Vector Byte 80
deriving DecidableEq, Repr

/-- The constraint rule R7 puts on the open parameters: `W >= 1` and `H >= 1` (the font's length is in its type). -/
abbrev Config.wf (c : Config) : Prop := 1 ≤ c.width ∧ 1 ≤ c.height

/-- `MEM_SIZE` (rule R6): memory has the addresses 0x000 to 0xFFF. -/
abbrev Config.memSize : Nat := 4096

/-- `PROG_BASE` (rule R6): where a program is loaded, and the value of `PC` at reset. -/
abbrev Config.progBase : Nat := 0x200

/-- `PROG_MAX` (rule R6): the longest program `load_program` accepts, `MEM_SIZE - PROG_BASE`. -/
abbrev Config.progMax : Nat := 3584

/-- `FONT_BYTES` (rule R6): the font copy occupies memory 0 to 79. -/
abbrev Config.fontBytes : Nat := 80

/-- `SPRITE_WIDTH` (rule R6): a sprite row is one byte, eight pixels. -/
abbrev Config.spriteWidth : Nat := 8

/-- THE FREE VALUE of the model: the byte the host passes with a step (rules R90, R93; decision D22: "A free 8-bit input of
each step, under no law"). It has no body, so nothing can be proved of its value; `State.draws` says which draw is next.
DESIGN CHOICE, safe: log entry 1. -/
opaque Config.randomByte : Nat → Byte

end Sys2Proof
end

