-- ==== Sys2Proof/Machine/Params.lean ====
section
/-! DEFINITION. The default values of the open parameters (spec 00_scope.md rule R7, 10_state.md rule R31; decisions D2, D3).
The source gives none of these numbers: the spec supplies them from general knowledge, so a claim that rests on one of them
is a claim about the default machine only (log entry 7). -/

namespace Sys2Proof.Machine

/-- Glyphs 0 to 7 of the default font table (rule R31), five bytes each. -/
def fontLow : List Byte :=
  [0xF0#8, 0x90#8, 0x90#8, 0x90#8, 0xF0#8] ++ [0x20#8, 0x60#8, 0x20#8, 0x20#8, 0x70#8] ++
  [0xF0#8, 0x10#8, 0xF0#8, 0x80#8, 0xF0#8] ++ [0xF0#8, 0x10#8, 0xF0#8, 0x10#8, 0xF0#8] ++
  [0x90#8, 0x90#8, 0xF0#8, 0x10#8, 0x10#8] ++ [0xF0#8, 0x80#8, 0xF0#8, 0x10#8, 0xF0#8] ++
  [0xF0#8, 0x80#8, 0xF0#8, 0x90#8, 0xF0#8] ++ [0xF0#8, 0x10#8, 0x20#8, 0x40#8, 0x40#8]

/-- Glyphs 8 to F of the default font table (rule R31), five bytes each. -/
def fontHigh : List Byte :=
  [0xF0#8, 0x90#8, 0xF0#8, 0x90#8, 0xF0#8] ++ [0xF0#8, 0x90#8, 0xF0#8, 0x10#8, 0xF0#8] ++
  [0xF0#8, 0x90#8, 0xF0#8, 0x90#8, 0x90#8] ++ [0xE0#8, 0x90#8, 0xE0#8, 0x90#8, 0xE0#8] ++
  [0xF0#8, 0x80#8, 0x80#8, 0x80#8, 0xF0#8] ++ [0xE0#8, 0x90#8, 0x90#8, 0x90#8, 0xE0#8] ++
  [0xF0#8, 0x80#8, 0xF0#8, 0x80#8, 0xF0#8] ++ [0xF0#8, 0x80#8, 0xF0#8, 0x80#8, 0x80#8]

/-- The default `FONT_TABLE` (rule R31): 16 glyphs of 5 bytes, glyph `g` at 5g to 5g+4. -/
def defaultFont : Vector Byte 80 := ⟨⟨fontLow ++ fontHigh⟩, by decide⟩

/-- The default configuration (rule R7): a display of 64 by 32 cells and the default font. -/
def defaultConfig : Config := { width := 64, height := 32, font := defaultFont }

end Sys2Proof.Machine
end

