-- ==== Sys2Proof/Machine/State.lean ====
section
/-! DEFINITION. The machine's state as plain data (spec 10_state.md, the table of section 1 and rules R20 to R35), the
reasons a step can stop, and the state after reset (rules R37, R230). -/

namespace Sys2Proof.Machine

/-- The fault causes of rule R201. Raising one of them is the spec's own fault entry (rule R202): the machine goes on to
the Faulted state, so it is a NEXT state of the model and never the `Fault` of a stopped step. -/
inductive FaultCause where
  /-- code 1: a fetch with `PC > 0xFFE` (rule R91) -/
  | fetchOutOfBounds
  /-- code 2: `draw` or `load-regs` past 0xFFF (rules R164, R145) -/
  | memReadOutOfBounds
  /-- code 3: `bcd` or `store-regs` past 0xFFF (rules R143, R144) -/
  | memWriteOutOfBounds
  /-- code 4: `call` with `SP >= 15` (rule R102) -/
  | stackOverflow
  /-- code 5: `return` with `SP == 0` (rule R100) -/
  | stackUnderflow
  /-- code 6: `skip-key` or `skip-nokey` with `V[x] > 15` (rules R180, R181) -/
  | keyIndexOutOfRange
deriving DecidableEq, Repr

/-- The fault record `(cause, pc, info)` (rules R34, R202). The spec gives `pc` and `info` no width: both are held in 16
bits, the widest value rule R201 records in either (log entry 12). -/
structure FaultRecord where
  cause : FaultCause
  pc    : Word
  info  : Word
deriving DecidableEq, Repr

/-- Why a step of the MODEL stops. The spec's own faults are not here: they lead to the Faulted state (rule R202). -/
inductive Fault where
  /-- Raised by `return` with `SP` above 15, where `stack[SP]` does not exist. The source calls stack indices out of range
  undefined (§3, rule R25) and rule R100 gives an effect only for `SP = 0` and for slots that exist. No run reaches such an
  `SP` (rule R24). Safe: log entry 4. -/
  | noSuchStackSlot (sp : Byte)
deriving DecidableEq, Repr

/-- What the model has no meaning for. -/
inductive Refusal where
  /-- Raised by an arm of `exec` whose instruction has no meaning yet; no arm of this model does. Safe: nothing can be
  proved of such an instruction. -/
  | notModelled (mnemonic : String)
deriving DecidableEq, Repr

/-- Memory: the bytes that differ from what an unlisted address reads as (`Memory.background`), as pairs of address and
byte, addresses rising. -/
abbrev Memory := List Host.Cell

/-- The state between commands (rule R35: "exactly the table of section 1"), the configuration the machine was built with,
and the model's own count of random draws. -/
structure State where
  /-- `W`, `H` and `FONT_TABLE`, fixed at construction (rules R7, R29, R31) -/
  config : Config
  /-- `V[0]` to `V[15]` (rule R20); `V[15]` is `VF` (rule R21) -/
  v      : Vector Byte 16
  /-- `I`, the index register (rule R22) -/
  i      : Word
  /-- `PC`, the program counter (rule R23) -/
  pc     : Word
  /-- `SP`, the stack pointer (rule R24) -/
  sp     : Byte
  /-- `stack[0]` to `stack[15]` (rule R25) -/
  stack  : Vector Word 16
  /-- `DT`, the delay timer (rule R26) -/
  dt     : Byte
  /-- `ST`, the sound timer (rule R27) -/
  st     : Byte
  /-- `memory[0x000]` to `memory[0xFFF]` (rule R28) -/
  memory : Memory
  /-- the display cells `fb[0]` to `fb[W*H-1]`, row-major, `true` for On (rule R29) -/
  fb     : List Bool
  /-- `key[0]` to `key[15]`, `true` for pressed (rule R30) -/
  keys   : Vector Bool 16
  /-- the fault record; the machine is Faulted while there is one (rule R34) -/
  fault  : Option FaultRecord
  /-- the model's own field: how many random bytes `rand` has used (log entry 1) -/
  draws  : Nat
deriving DecidableEq, Repr

/-- What a meaning answers. -/
abbrev Result := Host.Outcome State Fault Refusal

/-- The state after reset of a machine built with the configuration `c` (rules R37, R230): every field at the value rule
R37 gives it, memory at its reset contents (nothing listed). -/
def State.resetWith (c : Config) : State :=
  { config := c
    v := Vector.replicate 16 0#8
    i := 0#16
    pc := 0x200#16
    sp := 0#8
    stack := Vector.replicate 16 0#16
    dt := 0#8
    st := 0#8
    memory := []
    fb := List.replicate (c.width * c.height) false
    keys := Vector.replicate 16 false
    fault := none
    draws := 0 }

/-- The state after reset of the default machine (rules R7, R37). -/
def State.reset : State := State.resetWith defaultConfig

end Sys2Proof.Machine
end

