-- ==== Sys2Proof/Machine/Ops.lean ====
section
/-! DEFINITION. The named operations over memory, registers, display and control state (spec 00_scope.md rule R10,
20_memory.md rules R50 to R58), and fault entry (60_exceptions.md rule R202). Each field of the state is written through
one operation here. -/

namespace Sys2Proof.Machine

/-! ### Memory -/

/-- What an address that memory does not list reads as: the reset contents of rule R28, the font copy in 0x000 to 0x04F
and 0 elsewhere. -/
def Memory.background (font : Vector Byte 80) (a : Nat) : Byte :=
  if h : a < 80 then font[a] else 0#8

/-- `memory[a]` (rule R56). The rules read only addresses up to 0xFFF: every caller has passed the bounds check of rule R55
first. -/
def Memory.read (font : Vector Byte 80) : Memory → Nat → Byte
  | [], a => Memory.background font a
  | c :: m, a => if c.1 = a then c.2 else Memory.read font m a

/-- The list with the byte at `a` set to `b`, in canonical form: rising addresses, no entry that equals the background. -/
def Memory.put (font : Vector Byte 80) : Memory → Nat → Byte → Memory
  | [], a, b => if b = Memory.background font a then [] else [(a, b)]
  | c :: m, a, b =>
    if a < c.1 then (if b = Memory.background font a then c :: m else (a, b) :: c :: m)
    else if a = c.1 then (if b = Memory.background font a then m else (a, b) :: m)
    else c :: Memory.put font m a b

/-- `memory[a] <- b` (rule R56). "An access to a byte address above 0xFFF is never performed" (rule R55). -/
def Memory.write (font : Vector Byte 80) (m : Memory) (a : Nat) (b : Byte) : Memory :=
  if a < Config.memSize then Memory.put font m a b else m

/-- The canonical form: addresses rising and in 0x000 to 0xFFF, no entry equal to what an unlisted address reads as. -/
abbrev Memory.wf (font : Vector Byte 80) (m : Memory) : Prop :=
  m.Pairwise (fun c d => c.1 < d.1) ∧ ∀ c ∈ m, c.1 < Config.memSize ∧ c.2 ≠ Memory.background font c.1

/-- `MemRead(a, 1)` (rule R56). -/
def State.byteAt (s : State) (a : Nat) : Byte := Memory.read s.config.font s.memory a

/-- `MemRead(a, 2)` (rules R52, R56): big-endian. -/
def State.wordAt (s : State) (a : Nat) : Word := wordOfBytes (s.byteAt a) (s.byteAt (a + 1))

/-- `MemWrite(a, 1, b)` (rule R56). -/
def State.storeByte (s : State) (a : Nat) (b : Byte) : State :=
  { s with memory := Memory.write s.config.font s.memory a b }

/-- Byte stores to ascending addresses from `a` (rule R53). -/
def State.storeBytes (s : State) (a : Nat) : List Byte → State
  | [] => s
  | b :: bs => (s.storeByte a b).storeBytes (a + 1) bs

/-- The `n` bytes at `a` to `a + n - 1`, in ascending order (rule R53). -/
def State.loadBytes (s : State) (a n : Nat) : List Byte := (List.range n).map fun k => s.byteAt (a + k)

/-! ### Registers -/

/-- `V[r]` (rules R10, R20). -/
def State.reg (s : State) (r : Reg) : Byte := s.v[r.toNat]

/-- `V[r] <- b` (rules R10, R20): all sixteen registers are ordinary storage. -/
def State.setReg (s : State) (r : Reg) (b : Byte) : State := { s with v := s.v.set r.toNat b }

/-- `V[k] <- b` for the registers `k`, `k + 1`, … and the bytes of the list, in ascending order (rule R145). -/
def State.setRegs (s : State) (k : Nat) : List Byte → State
  | [] => s
  | b :: bs => (s.setReg (BitVec.ofNat 4 k) b).setRegs (k + 1) bs

/-- `I <- w` (rule R22). -/
def State.setI (s : State) (w : Word) : State := { s with i := w }

/-- `DT <- b` (rule R26). -/
def State.setDt (s : State) (b : Byte) : State := { s with dt := b }

/-- `ST <- b` (rule R27). -/
def State.setSt (s : State) (b : Byte) : State := { s with st := b }

/-- Counts one random byte as used: the model's own bookkeeping of the free draws (log entry 1). -/
def State.useDraw (s : State) : State := { s with draws := s.draws + 1 }

/-! ### Control -/

/-- `PC <- w` (rules R10, R23). -/
def State.setPc (s : State) (w : Word) : State := { s with pc := w }

/-- The advance of rule R92, `PC <- (PC + 2) mod 65536`; a taken skip does it once more (rule R108). -/
def State.advance (s : State) : State := s.setPc (s.pc + 2#16)

/-- `pc0`, the address of the instruction being executed, as an instruction sees it: `PC` already holds `pc0 + 2`
(rule R92). -/
def State.pc0 (s : State) : Word := s.pc - 2#16

/-- `SP <- SP + 1; stack[SP] <- PC` (rule R102), for an `SP` below 15. -/
def State.push (s : State) (h : s.sp.toNat < 15) : State :=
  { s with sp := s.sp + 1#8, stack := s.stack.set (s.sp.toNat + 1) s.pc }

/-- `PC <- stack[SP]; SP <- SP - 1` (rule R100), for an `SP` that names a slot. The slot keeps its value. -/
def State.pop (s : State) (h : s.sp.toNat < 16) : State :=
  { s with pc := s.stack[s.sp.toNat], sp := s.sp - 1#8 }

/-! ### Display and keys -/

/-- The display with the cells `cells` (rule R29). -/
def State.setFb (s : State) (cells : List Bool) : State := { s with fb := cells }

/-- `key[k]` (rules R10, R30). -/
def State.key (s : State) (k : Reg) : Bool := s.keys[k.toNat]

/-- `key[k] <- p` (rules R30, R187). -/
def State.setKeyBit (s : State) (k : Reg) (p : Bool) : State := { s with keys := s.keys.set k.toNat p }

/-! ### Taking a fault -/

/-- FAULT ENTRY (rule R202): nothing of the step is kept, `PC` holds `pc0`, the fault record is written, and nothing else
changes. Called on a state in which the step has written nothing but the advance of `PC` (rule R97: "fault or complete" is
decided up front). There is no handler and no return from a fault (rules R200, R205); the one way out is the `reset`
command (Machine/Commands.lean). -/
def State.enterFault (s : State) (pc0 : Word) (cause : FaultCause) (info : Word) : State :=
  { s with pc := pc0, fault := some { cause := cause, pc := pc0, info := info } }

/-- `raise Fault(cause, info)` inside an instruction (rules R10, R202). -/
def raiseFault (cause : FaultCause) (info : Word) (s : State) : Result :=
  .next (s.enterFault s.pc0 cause info)

/-- The cause codes of rule R201, the spec's own numbers (decision D13). -/
def FaultCause.code : FaultCause → Nat
  | .fetchOutOfBounds => 1
  | .memReadOutOfBounds => 2
  | .memWriteOutOfBounds => 3
  | .stackOverflow => 4
  | .stackUnderflow => 5
  | .keyIndexOutOfRange => 6

end Sys2Proof.Machine
end

