-- ==== Sys2Proof/Machine/Operands.lean ====
section
/-! DEFINITION. The operand forms (spec 30_encoding.md rule R73, 43_index_memory.md rule R147): a register field used
directly as the register index, immediates zero-extended and never scaled, and the one data addressing mode, `I` plus a
small constant, with the bounds check that is made once for the whole range an instruction touches (20_memory.md rule
R55). -/

namespace Sys2Proof.Machine

/-- An address immediate where it is written to `PC` or `I`: `zext_16(nnn)` (rule R73). -/
def zextImm (nnn : Imm12) : Word := nnn.setWidth 16

/-- A register or timer value in 16-bit arithmetic: `zext_16(V[x])` (rule R73). -/
def zextByte (b : Byte) : Word := b.setWidth 16

/-- The base of every data access: `I` as a natural number, never wrapped to 12 or 16 bits (rules R55, R147). -/
def State.base (s : State) : Nat := s.i.toNat

/-- How many registers `store-regs Vx` and `load-regs Vx` transfer: `V[0]` to `V[x]`, `x + 1` of them (rules R144, R145). -/
def regCount (x : Reg) : Nat := x.toNat + 1

/-- The bounds check of rule R55 for an instruction that touches the `n` bytes from `I`: `I + n > 0x1000` is out of bounds.
For `n` bytes with `n >= 1` this is "the last byte address exceeds 0xFFF"; for the empty range of `draw` with `n = 0` it is
rule R164's own condition. -/
def State.outOfBounds (s : State) (n : Nat) : Bool := decide (Config.memSize < s.base + n)

/-- The values of `V[0]` to `V[x]`, in ascending order (rule R144). -/
def State.regsUpTo (s : State) (x : Reg) : List Byte :=
  (List.range (regCount x)).map fun k => s.reg (BitVec.ofNat 4 k)

/-- The three decimal digits of a byte, hundreds first (rule R143). -/
def bcdDigits (b : Byte) : List Byte :=
  [BitVec.ofNat 8 (b.toNat / 100), BitVec.ofNat 8 (b.toNat / 10 % 10), BitVec.ofNat 8 (b.toNat % 10)]

/-- The key a register value numbers, where it numbers one: the value itself, not its low nibble (rule R180, decision
D12). -/
def keyNumber (b : Byte) : Option Reg := if b.toNat ≤ 15 then some (b.setWidth 4) else none

end Sys2Proof.Machine
end

