-- ==== Sys2Proof/Machine/Flags.lean ====
section
/-! DEFINITION. The 8-bit ALU and every flag the machine computes (spec 42_alu.md rules R120, R133 to R135, 10_state.md
rule R21). Results and flags are computed on exact natural numbers and narrowed at the end. The collision flag of `draw`
is computed by the plotter (Machine/Plotter.lean). -/

namespace Sys2Proof.Machine

/-- A flag as the byte written to `VF`: "always exactly 0 or 1" (rules R21, R135). -/
def flagByte (f : Bool) : Byte := if f then 1#8 else 0#8

/-- Carry out of an addition: the unsigned sum exceeds 255 (rules R120, R127). -/
def carryOut (a b : Byte) : Bool := decide (255 < a.toNat + b.toNat)

/-- No borrow in `a - b`: `a >= b` on the values before the instruction (rules R120, R128, R130; conflict C2). -/
def noBorrow (a b : Byte) : Bool := decide (b.toNat ≤ a.toNat)

/-- The bit a right shift moves out: bit 0 before the shift (rules R120, R129). -/
def shiftedOutLow (a : Byte) : Bool := decide (a.toNat % 2 = 1)

/-- The bit a left shift moves out: bit 7 before the shift (rules R120, R131). -/
def shiftedOutHigh (a : Byte) : Bool := decide (a.toNat / 128 % 2 = 1)

/-- The operations of the ALU (rule R120). -/
inductive AluOp where
  | pass | or | and | xor | add | sub | shr | shl
deriving DecidableEq, Repr

/-- The 8-bit result of an ALU operation (rule R120). -/
def aluResult (op : AluOp) (a b : Byte) : Byte :=
  match op with
  | .pass => b
  | .or => a ||| b
  | .and => a &&& b
  | .xor => a ^^^ b
  | .add => BitVec.ofNat 8 ((a.toNat + b.toNat) % 256)
  | .sub => BitVec.ofNat 8 ((a.toNat + 256 - b.toNat) % 256)
  | .shr => BitVec.ofNat 8 (a.toNat / 2)
  | .shl => BitVec.ofNat 8 (2 * a.toNat % 256)

/-- The flag of an ALU operation, where it has one (rule R120). -/
def aluFlag (op : AluOp) (a b : Byte) : Option Bool :=
  match op with
  | .pass | .or | .and | .xor => none
  | .add => some (carryOut a b)
  | .sub => some (noBorrow a b)
  | .shr => some (shiftedOutLow a)
  | .shl => some (shiftedOutHigh a)

/-- `VF <- f` (rule R21). -/
def State.setFlag (s : State) (f : Bool) : State := s.setReg vf (flagByte f)

/-- `V[x] <- op(a, b)`, no flag written (rules R121 to R126, R132). -/
def aluWrite (op : AluOp) (x : Reg) (a b : Byte) (s : State) : State := s.setReg x (aluResult op a b)

/-- Result first, flag second, both of operands sampled before any write: `add`, `sub`, `subn` (rules R127, R128, R130,
R133). With `x = 15` the flag overwrites the result (rule R134). -/
def aluWriteThenFlag (op : AluOp) (x : Reg) (a b : Byte) (s : State) : State :=
  match aluFlag op a b with
  | some f => (aluWrite op x a b s).setFlag f
  | none => aluWrite op x a b s

/-- Flag first, result second, the result re-reading `V[x]` after the flag is written: `shr`, `shl` (rules R129, R131,
R133, decision D14). It matters only for `x = 15`. -/
def aluFlagThenWrite (op : AluOp) (x : Reg) (s : State) : State :=
  match aluFlag op (s.reg x) 0#8 with
  | some f => let t := s.setFlag f; aluWrite op x (t.reg x) 0#8 t
  | none => aluWrite op x (s.reg x) 0#8 s

/-- A skip (rule R108): the advanced `PC` advances once more when the condition holds. -/
def skipIf (c : Bool) (s : State) : State := if c then s.advance else s

end Sys2Proof.Machine
end

