-- ==== Sys2Proof/Machine/Arith.lean ====
section
/-! DEFINITION. Register and ALU instructions (spec 42_alu.md rules R121 to R132), each one line over the ALU of
Machine/Flags.lean. None of them can fault, and none touches anything but general registers. -/

namespace Sys2Proof.Machine

/-- `load-imm Vx,kk` (rule R121): `V[x] <- kk`. -/
def execLoadImm (x : Reg) (kk : Byte) (s : State) : Result := .next (aluWrite .pass x (s.reg x) kk s)

/-- `add-imm Vx,kk` (rule R122): `V[x] <- (V[x] + kk) mod 256`; the flag of the addition is discarded. -/
def execAddImm (x : Reg) (kk : Byte) (s : State) : Result := .next (aluWrite .add x (s.reg x) kk s)

/-- `move Vx,Vy` (rule R123): `V[x] <- V[y]`. -/
def execMove (x y : Reg) (s : State) : Result := .next (aluWrite .pass x (s.reg x) (s.reg y) s)

/-- `or Vx,Vy` (rule R124); `VF` is not written. -/
def execOr (x y : Reg) (s : State) : Result := .next (aluWrite .or x (s.reg x) (s.reg y) s)

/-- `and Vx,Vy` (rule R125); `VF` is not written. -/
def execAnd (x y : Reg) (s : State) : Result := .next (aluWrite .and x (s.reg x) (s.reg y) s)

/-- `xor Vx,Vy` (rule R126); `VF` is not written. -/
def execXor (x y : Reg) (s : State) : Result := .next (aluWrite .xor x (s.reg x) (s.reg y) s)

/-- `add Vx,Vy` (rule R127): `V[x] <- (a + b) mod 256`, then `VF <- carry`. -/
def execAdd (x y : Reg) (s : State) : Result := .next (aluWriteThenFlag .add x (s.reg x) (s.reg y) s)

/-- `sub Vx,Vy` (rule R128): `V[x] <- (a - b) mod 256`, then `VF <- no borrow`. -/
def execSub (x y : Reg) (s : State) : Result := .next (aluWriteThenFlag .sub x (s.reg x) (s.reg y) s)

/-- `shr Vx` (rule R129): `VF <- V[x] & 1`, then `V[x] <- V[x] >> 1`. The `y` nibble is ignored (rule R76). -/
def execShr (x _y : Reg) (s : State) : Result := .next (aluFlagThenWrite .shr x s)

/-- `subn Vx,Vy` (rule R130): `V[x] <- (b - a) mod 256`, then `VF <- no borrow`. -/
def execSubn (x y : Reg) (s : State) : Result := .next (aluWriteThenFlag .sub x (s.reg y) (s.reg x) s)

/-- `shl Vx` (rule R131): `VF <- (V[x] >> 7) & 1`, then `V[x] <- (V[x] << 1) mod 256`. The `y` nibble is ignored. -/
def execShl (x _y : Reg) (s : State) : Result := .next (aluFlagThenWrite .shl x s)

/-- `rand` with the random byte `rb` of its step (rule R132): `V[x] <- kk & rb`. The draw is counted (log entry 1). -/
def randWith (rb : Byte) (x : Reg) (kk : Byte) (s : State) : State := (aluWrite .and x kk rb s).useDraw

/-- `rand Vx,kk` (rule R132), the step's random byte being the model's next free draw (rule R93, decision D22). -/
def execRand (x : Reg) (kk : Byte) (s : State) : Result := .next (randWith (Config.randomByte s.draws) x kk s)

end Sys2Proof.Machine
end

