-- ==== Sys2Proof/Machine/Control.lean ====
section
/-! DEFINITION. Control transfer (spec 41_control_flow.md rules R100 to R109). In every meaning `PC` already holds `pc0 + 2`
(40_step_and_decode.md rule R92). -/

namespace Sys2Proof.Machine

/-- `return` (rule R100): `StackUnderflow` at `SP = 0`; else `PC <- stack[SP]; SP <- SP - 1`. An `SP` above 15 names no
slot: no run reaches one (rule R24), and the model stops there (log entry 4). -/
def execRet (s : State) : Result :=
  if s.sp = 0#8 then raiseFault .stackUnderflow 0#16 s
  else if h : s.sp.toNat < 16 then .next (s.pop h)
  else .fault (.noSuchStackSlot s.sp)

/-- `jump nnn` (rule R101): `PC <- zext_16(nnn)`. -/
def execJump (nnn : Imm12) (s : State) : Result := .next (s.setPc (zextImm nnn))

/-- `call nnn` (rule R102): `StackOverflow` at `SP >= 15`; else push the advanced `PC` and jump. -/
def execCall (nnn : Imm12) (s : State) : Result :=
  if h : s.sp.toNat < 15 then .next ((s.push h).setPc (zextImm nnn))
  else raiseFault .stackOverflow (zextByte s.sp) s

/-- `skip-eq-imm Vx,kk` (rule R103): skip if `V[x] == kk`. -/
def execSkipEqImm (x : Reg) (kk : Byte) (s : State) : Result := .next (skipIf (s.reg x == kk) s)

/-- `skip-ne-imm Vx,kk` (rule R104): skip if `V[x] != kk`. -/
def execSkipNeImm (x : Reg) (kk : Byte) (s : State) : Result := .next (skipIf (s.reg x != kk) s)

/-- `skip-eq-reg Vx,Vy` (rule R105): skip if `V[x] == V[y]`. -/
def execSkipEqReg (x y : Reg) (s : State) : Result := .next (skipIf (s.reg x == s.reg y) s)

/-- `skip-ne-reg Vx,Vy` (rule R106): skip if `V[x] != V[y]`. -/
def execSkipNeReg (x y : Reg) (s : State) : Result := .next (skipIf (s.reg x != s.reg y) s)

/-- `jump-offset nnn` (rule R107): `PC <- (zext_16(nnn) + zext_16(V[0])) mod 65536`, not reduced to 12 bits. -/
def execJumpOffset (nnn : Imm12) (s : State) : Result := .next (s.setPc (zextImm nnn + zextByte (s.reg 0#4)))

end Sys2Proof.Machine
end

