-- ==== Sys2Proof/Machine/Plotter.lean ====
section
/-! DEFINITION. The sprite-XOR plotter with toroidal wrapping and its collision detector (spec 44_display.md rules R160 to
R162, R165, R166). Every definition takes the display's width `W` and height `H` as arguments. -/

namespace Sys2Proof.Machine

/-- A display being plotted: its cells, and whether a pixel has collided so far. -/
abbrev Plot := List Bool × Bool

/-- The cell that sprite row `r`, sprite column `c` of a sprite at (`x`, `y`) falls on (rules R160, R161, R166): sums on
naturals, reduced by `mod H` and `mod W` only, and the row-major index `row * W + col`. -/
def pixelCell (W H x y r c : Nat) : Nat := (y + r) % H * W + (x + c) % W

/-- Sprite column `c` of a sprite byte: bit `7 - c`, so that bit 7 is the leftmost pixel (rule R161). -/
def spriteBit (b : Byte) (c : Nat) : Bool := b.getLsbD (7 - c)

/-- One pixel (rules R161, R162): XOR the sprite bit into the cell; a collision is a sprite bit 1 on a cell that is On. -/
def plotPixel (j : Nat) (bit : Bool) (p : Plot) : Plot :=
  let old := p.1.getD j false
  (p.1.set j (old ^^ bit), p.2 || (bit && old))

/-- One sprite row (rules R161, R165): columns 0 to 7 in ascending order, each seeing the cells the earlier ones left. -/
def plotRow (W H x y r : Nat) (b : Byte) (p : Plot) : Plot :=
  (List.range Config.spriteWidth).foldl (fun q c => plotPixel (pixelCell W H x y r c) (spriteBit b c) q) p

/-- The sprite rows from row `r` on, in ascending order (rules R161, R165). -/
def plotRows (W H x y : Nat) : Nat → List Byte → Plot → Plot
  | _, [], p => p
  | r, b :: bs, p => plotRows W H x y (r + 1) bs (plotRow W H x y r b p)

/-- `draw_bytes(x, y, bytes)` (rule R161): the display afterwards and the collision bit, which starts at 0 for every draw
(rule R162). -/
def drawBytes (W H x y : Nat) (bytes : List Byte) (fb : List Bool) : Plot := plotRows W H x y 0 bytes (fb, false)

end Sys2Proof.Machine
end

