-- ==== Sys2Proof/Machine/Display.lean ====
section
/-! DEFINITION. The display instructions (spec 44_display.md rules R163, R164). -/

namespace Sys2Proof.Machine

/-- `clear` (rule R163): every cell Off. -/
def execClear (s : State) : Result := .next (s.setFb (List.replicate (s.config.width * s.config.height) false))

/-- The sprite `draw` plots (rule R164): the `n` bytes from `I`, at the position (`V[x]`, `V[y]`) sampled before `VF` is
written. -/
def spritePlot (x y : Reg) (n : Nibble) (s : State) : Plot :=
  drawBytes s.config.width s.config.height (s.reg x).toNat (s.reg y).toNat (s.loadBytes s.base n.toNat) s.fb

/-- `draw Vx,Vy,n` (rule R164): plot the sprite, then `VF <- collision`, always 0 or 1. -/
def execDraw (x y : Reg) (n : Nibble) (s : State) : Result :=
  if s.outOfBounds n.toNat then raiseFault .memReadOutOfBounds s.i s
  else .next ((s.setFb (spritePlot x y n s).1).setFlag (spritePlot x y n s).2)

end Sys2Proof.Machine
end

