-- ==== Sys2Proof/Machine/Index.lean ====
section
/-! DEFINITION. Index register and memory instructions (spec 43_index_memory.md rules R140 to R147). The memory
instructions check the whole range they touch before they write anything (20_memory.md rule R55), and none of them
changes `I` (rule R147). -/

namespace Sys2Proof.Machine

/-- `load-index nnn` (rule R140): `I <- zext_16(nnn)`. -/
def execLoadIndex (nnn : Imm12) (s : State) : Result := .next (s.setI (zextImm nnn))

/-- `add-index Vx` (rule R141): `I <- (I + zext_16(V[x])) mod 65536`, no flag. -/
def execAddIndex (x : Reg) (s : State) : Result := .next (s.setI (s.i + zextByte (s.reg x)))

/-- `font-addr Vx` (rule R142): `I <- zext_16(V[x]) * 5`, the whole byte. -/
def execFontAddr (x : Reg) (s : State) : Result := .next (s.setI (zextByte (s.reg x) * 5#16))

/-- `bcd Vx` (rule R143): the three decimal digits of `V[x]` to `I`, `I+1`, `I+2`. -/
def execBcd (x : Reg) (s : State) : Result :=
  if s.outOfBounds 3 then raiseFault .memWriteOutOfBounds s.i s
  else .next (s.storeBytes s.base (bcdDigits (s.reg x)))

/-- `store-regs Vx` (rule R144): `V[0]` to `V[x]` to memory from `I`. -/
def execStoreRegs (x : Reg) (s : State) : Result :=
  if s.outOfBounds (regCount x) then raiseFault .memWriteOutOfBounds s.i s
  else .next (s.storeBytes s.base (s.regsUpTo x))

/-- `load-regs Vx` (rule R145): memory from `I` to `V[0]` to `V[x]`. -/
def execLoadRegs (x : Reg) (s : State) : Result :=
  if s.outOfBounds (regCount x) then raiseFault .memReadOutOfBounds s.i s
  else .next (s.setRegs 0 (s.loadBytes s.base (regCount x)))

end Sys2Proof.Machine
end

