-- ==== Sys2Proof/Machine/Keys.lean ====
section
/-! DEFINITION. Keyboard and timer instructions (spec 45_keyboard_timer.md rules R180 to R185). None of them changes the
key table (rule R191). -/

namespace Sys2Proof.Machine

/-- `skip-key Vx` (rule R180): `KeyIndexOutOfRange` if `V[x] > 15`; else skip if that key is pressed. -/
def execSkipKey (x : Reg) (s : State) : Result :=
  match keyNumber (s.reg x) with
  | some k => .next (skipIf (s.key k) s)
  | none => raiseFault .keyIndexOutOfRange (zextByte (s.reg x)) s

/-- `skip-nokey Vx` (rule R181): `KeyIndexOutOfRange` if `V[x] > 15`; else skip if that key is not pressed. -/
def execSkipNokey (x : Reg) (s : State) : Result :=
  match keyNumber (s.reg x) with
  | some k => .next (skipIf (!s.key k) s)
  | none => raiseFault .keyIndexOutOfRange (zextByte (s.reg x)) s

/-- The lowest-numbered pressed key: "scanned 0 upward, first match wins" (rule R182). -/
def State.firstPressed (s : State) : Option Reg := ((List.range 16).map (BitVec.ofNat 4)).find? s.key

/-- `wait-key Vx` (rule R182): with no key pressed `PC <- PC - 2`, so that the step changes nothing at all; else `V[x]` is
the lowest pressed key. -/
def execWaitKey (x : Reg) (s : State) : Result :=
  match s.firstPressed with
  | none => .next (s.setPc s.pc0)
  | some k => .next (s.setReg x (k.setWidth 8))

/-- `load-delay Vx` (rule R183): `V[x] <- DT`. -/
def execLoadDelay (x : Reg) (s : State) : Result := .next (s.setReg x s.dt)

/-- `set-delay Vx` (rule R184): `DT <- V[x]`. -/
def execSetDelay (x : Reg) (s : State) : Result := .next (s.setDt (s.reg x))

/-- `set-sound Vx` (rule R185): `ST <- V[x]`. -/
def execSetSound (x : Reg) (s : State) : Result := .next (s.setSt (s.reg x))

end Sys2Proof.Machine
end

