-- ==== Sys2Proof/Machine/Cycle.lean ====
section
/-! DEFINITION. The shape of a step: fetch, advance, decode, execute (spec 40_step_and_decode.md rules R90 to R98). It is
written once over the meaning of an instruction, so that the step of `Host.Core` (which draws the random byte freely) and the
`step(random_byte)` command (which is given it) are the same step. -/

namespace Sys2Proof.Machine

/-- A fetch is possible: both bytes of the word exist, `PC <= 0xFFE` (rules R55, R91). -/
def State.canFetch (s : State) : Bool := decide (s.pc.toNat ≤ 0xFFE)

/-- The word at `PC`, big-endian, at any parity of `PC` (rules R52, R54, R91). -/
def State.fetchWord (s : State) : Word := s.wordAt s.pc.toNat

/-- The default arm (rule R95): nothing but the advance of `PC`, which the step has already made. -/
def execUnknown (s : State) : Result := .next s

/-- Fetch, advance, decode, execute (rules R91, R92, R94) with `run` for the meaning of an instruction: the instruction runs
on the state whose `PC` is `pc0 + 2`. -/
def fetchAndRun (run : Instr → State → Result) (s : State) : Result :=
  match decodeWord s.fetchWord with
  | .instr i => run i s.advance
  | .unknown _ => execUnknown s.advance

/-- One step (rule R98): a Faulted machine does nothing (rules R90, R205); a `PC` above 0xFFE faults on fetch, recording
`PC` (rule R91). -/
def cycle (run : Instr → State → Result) (s : State) : Result :=
  if s.fault.isSome then .next s
  else if s.canFetch then fetchAndRun run s
  else .next (s.enterFault s.pc .fetchOutOfBounds s.pc)

/-- The meaning of an instruction in a step whose random byte is `rb` (rule R93): only `rand` looks at it. -/
def execWith (rb : Byte) (i : Instr) (s : State) : Result :=
  match i with
  | .rand x kk => .next (randWith rb x kk s)
  | i => exec i s

/-- `step(random_byte)` (rule R90). -/
def stepWith (rb : Byte) (s : State) : Result := cycle (execWith rb) s

/-- A state whose next step can fetch: not Faulted, and `PC` at an address that has two bytes (itself where it has, else the
program base). Used by `State.withFetchWord` only. -/
def State.readyToFetch (s : State) : State :=
  { s with fault := none, pc := if s.canFetch then s.pc else 0x200#16 }

/-- `s` with the two bytes of `w` stored big-endian where its next step fetches (rule R52). -/
def State.placeWord (s : State) (w : Word) : State :=
  let t := s.readyToFetch
  t.storeBytes t.pc.toNat [highByte w, lowByte w]

end Sys2Proof.Machine
end

