-- ==== Sys2Proof/Machine/Step.lean ====
section
/-! DEFINITION. The step of the core, and the host's way to place an instruction where the step fetches it. -/

namespace Sys2Proof.Machine

/-- One step of the core (rules R90 to R98), its random byte the next free draw. Answers next (the instruction's next state,
or the Faulted state a fault leads to), or the fault of `return` with an `SP` no run reaches; it never refuses. -/
def step (s : State) : Host.Outcome State Fault Refusal := cycle exec s

/-- `s` with the instruction word `w` stored where the next step fetches (log entry 16). Every row of the table is one
16-bit word; a bit above `nbits` is 0. -/
def State.withFetchWord (s : State) (nbits w : Nat) : State := s.placeWord (BitVec.ofNat 16 (w % 2 ^ nbits))

end Sys2Proof.Machine
end

