-- ==== Sys2Proof/Machine/Commands.lean ====
section
/-! DEFINITION. The command interface (spec 00_scope.md rule R5): `reset`, `load_program`, `step(random_byte)`,
`tick_timers`, `set_key`, `unset_key` and read-back, each one atomic transition of the state (rules R96, R186 to R189, R205,
R208, R230 to R234, R242). A schedule is a list of commands: the host may issue them in any order and number (decision
D18). -/

namespace Sys2Proof.Machine

/-- The host's commands (rules R5, R242). A key number is any number the host might pass; one above 15 is a refused command
(rule R187). -/
inductive Command where
  | reset
  | loadProgram (bytes : List Byte)
  | step (randomByte : Byte)
  | tickTimers
  | setKey (index : Nat)
  | unsetKey (index : Nat)
  | readBack
deriving DecidableEq, Repr

/-- Everything the host can read (rules R36, R202; decision D23): the whole memory, the display with its dimensions, the key
table, the fault record, and for the observation of a run every other field too. -/
structure ReadBack where
  memory : List Byte
  cells  : List Bool
  width  : Nat
  height : Nat
  keys   : Vector Bool 16
  fault  : Option FaultRecord
  v      : Vector Byte 16
  i      : Word
  pc     : Word
  sp     : Byte
  stack  : Vector Word 16
  dt     : Byte
  st     : Byte
deriving DecidableEq, Repr

/-- What a command answers beside the state: read-back's data, or the one error a command can report, "program too large"
(rule R208). -/
inductive Response where
  | done
  | programTooLarge
  | data (r : ReadBack)
deriving DecidableEq, Repr

/-- The `reset` command (rule R230): accepted in every state; the configuration is fixed at construction (rule R29). The
model's own draw count is no field of the machine and is kept. -/
def resetCommand (s : State) : State := { State.resetWith s.config with draws := s.draws }

/-- The font table as bytes in address order. -/
def State.fontBytes (s : State) : List Byte := s.config.font.toList

/-- `load_program` accepts an image of at most 3584 bytes (rules R6, R232). -/
def fitsProgramArea (bytes : List Byte) : Bool := decide (bytes.length ≤ Config.progMax)

/-- The memory effect of `load_program` (rule R232): the image from 0x200, then the font into 0 to 79. -/
def loadImage (bytes : List Byte) (s : State) : State :=
  (s.storeBytes Config.progBase bytes).storeBytes 0 s.fontBytes

/-- `load_program(bytes)` (rules R232, R205): ignored while Faulted, rejected whole when too large. -/
def loadProgramCommand (bytes : List Byte) (s : State) : State :=
  if s.fault.isSome then s else if fitsProgramArea bytes then loadImage bytes s else s

/-- One timer's tick (rule R186): one down, saturating at 0. -/
def tickByte (b : Byte) : Byte := if b = 0#8 then b else b - 1#8

/-- `tick_timers` (rules R186, R205). -/
def tickTimersCommand (s : State) : State :=
  if s.fault.isSome then s else (s.setDt (tickByte s.dt)).setSt (tickByte s.st)

/-- `set_key(index)` and `unset_key(index)` (rules R187, R205): one key bit; an index above 15 has no effect. -/
def keyCommand (index : Nat) (pressed : Bool) (s : State) : State :=
  if s.fault.isSome then s
  else if index ≤ 15 then s.setKeyBit (BitVec.ofNat 4 index) pressed else s

/-- All 4096 bytes of memory in address order, as the host reads them (rule R36). -/
def State.memoryImage (s : State) : List Byte := s.loadBytes 0 Config.memSize

/-- Read-back (rule R36): the data, and no change of state. -/
def readBack (s : State) : ReadBack :=
  { memory := s.memoryImage, cells := s.fb, width := s.config.width, height := s.config.height
    keys := s.keys, fault := s.fault, v := s.v, i := s.i, pc := s.pc, sp := s.sp, stack := s.stack, dt := s.dt, st := s.st }

/-- The transition a command makes (rule R5). -/
def command (c : Command) (s : State) : Result :=
  match c with
  | .reset => .next (resetCommand s)
  | .loadProgram bytes => .next (loadProgramCommand bytes s)
  | .step rb => stepWith rb s
  | .tickTimers => .next (tickTimersCommand s)
  | .setKey k => .next (keyCommand k true s)
  | .unsetKey k => .next (keyCommand k false s)
  | .readBack => .next s

/-- What a command answers in a state (rules R36, R208): `load_program` reports an image that is too large, unless the
machine is Faulted and ignores the command. -/
def response (c : Command) (s : State) : Response :=
  match c with
  | .loadProgram bytes => if s.fault.isNone && !fitsProgramArea bytes then .programTooLarge else .done
  | .readBack => .data (readBack s)
  | .reset | .step _ | .tickTimers | .setKey _ | .unsetKey _ => .done

/-- A schedule: the commands of the list, one after another (rules R5, R189, R242). -/
def runCommands : List Command → State → Result
  | [], s => .next s
  | c :: cs, s =>
    match command c s with
    | .next t => runCommands cs t
    | .fault r => .fault r
    | .refused r => .refused r

end Sys2Proof.Machine
end

