-- ==== Sys2Proof/Safety.lean ====
section
/-! DEFINITION. The terms claims are stated in: the invariant of the reachable states (spec 10_state.md rule R38), the fault
table of 60_exceptions.md rule R201 written on its own and not over the meanings, the unrecognized words of 30_encoding.md
rule R75, the end of a run (70_reset_and_hazards.md rule R235), reachability and a safe schedule. -/

namespace Sys2Proof.Machine

/-- The invariant of rule R38, with what rules R23, R24, R29, R202 and the form of memory add. It holds in Faulted states
too. -/
structure State.Inv (s : State) : Prop where
  /-- `W >= 1` and `H >= 1` (rule R7) -/
  config_wf : s.config.wf
  /-- "the display has exactly `W*H` cells" (rule R38) -/
  fb_length : s.fb.length = s.config.width * s.config.height
  /-- memory is in canonical form, every address in 0x000 to 0xFFF -/
  memory_wf : Memory.wf s.config.font s.memory
  /-- "`0 <= SP <= 15`" (rules R24, R38) -/
  sp_le : s.sp.toNat ≤ 15
  /-- "`PC` is in 0 .. 0x10FE" (rules R23, R38) -/
  pc_le : s.pc.toNat ≤ 0x10FE
  /-- "`stack[1 .. SP]` hold values ... each in 2 .. 0x1000" (rule R38) -/
  stack_range : ∀ k : Fin 16, 1 ≤ k.val → k.val ≤ s.sp.toNat → 2 ≤ s.stack[k].toNat ∧ s.stack[k].toNat ≤ 0x1000
  /-- a Faulted machine's `PC` holds the recorded `pc0` (rule R202) -/
  fault_pc : ∀ r, s.fault = some r → r.pc = s.pc

/-- Every byte of memory reads the same in both states. -/
def SameMemory (s t : State) : Prop := ∀ a : Nat, t.byteAt a = s.byteAt a

/-- The 16-bit number `n` is the word of `i`, in both directions (rules R71, R82). -/
def Encodes (n : Nat) (i : Instr) : Prop := decodeWord (BitVec.ofNat 16 n) = .instr i ∧ (encode i).toNat = n

/-- What rule R202 says a fault leaves of the state an instruction runs on (whose `PC` is `pc0 + 2`): `PC` holds `pc0`
again, the record is written, every other field is as it was before the step. -/
def FaultedState (cause : FaultCause) (info : Word) (s : State) : State :=
  { s with pc := s.pc - 2#16, fault := some { cause := cause, pc := s.pc - 2#16, info := info } }

/-- The table of rule R201 for the instructions: the one fault an instruction can raise on a state, with its `info`. -/
def faultOf (i : Instr) (s : State) : Option (FaultCause × Word) :=
  match i with
  | .draw _ _ n => if 0x1000 < s.i.toNat + n.toNat then some (.memReadOutOfBounds, s.i) else none
  | .loadRegs x => if 0xFFF < s.i.toNat + x.toNat then some (.memReadOutOfBounds, s.i) else none
  | .bcd _ => if 0xFFF < s.i.toNat + 2 then some (.memWriteOutOfBounds, s.i) else none
  | .storeRegs x => if 0xFFF < s.i.toNat + x.toNat then some (.memWriteOutOfBounds, s.i) else none
  | .call _ => if 15 ≤ s.sp.toNat then some (.stackOverflow, s.sp.setWidth 16) else none
  | .ret => if s.sp.toNat = 0 then some (.stackUnderflow, 0#16) else none
  | .skipKey x | .skipNokey x =>
    if 15 < (s.reg x).toNat then some (.keyIndexOutOfRange, (s.reg x).setWidth 16) else none
  | .clear | .jump _ | .skipEqImm _ _ | .skipNeImm _ _ | .skipEqReg _ _ | .loadImm _ _ | .addImm _ _ | .move _ _
  | .or _ _ | .and _ _ | .xor _ _ | .add _ _ | .sub _ _ | .shr _ _ | .subn _ _ | .shl _ _ | .skipNeReg _ _
  | .loadIndex _ | .jumpOffset _ | .rand _ _ | .loadDelay _ | .waitKey _ | .setDelay _ | .setSound _ | .addIndex _
  | .fontAddr _ => none

/-- The registers an instruction may write, as 10_state.md rules R20 and R21 and the instruction rules name them: its
destination `x`, `VF` for the writers of a flag, and `V[0]` to `V[x]` for `load-regs`. -/
def mayWriteReg (i : Instr) (r : Reg) : Bool :=
  match i with
  | .loadImm x _ | .addImm x _ | .move x _ | .or x _ | .and x _ | .xor x _ | .rand x _ | .loadDelay x | .waitKey x => r == x
  | .add x _ | .sub x _ | .shr x _ | .subn x _ | .shl x _ => r == x || r == vf
  | .draw _ _ _ => r == vf
  | .loadRegs x => decide (r.toNat ≤ x.toNat)
  | .clear | .ret | .jump _ | .call _ | .skipEqImm _ _ | .skipNeImm _ _ | .skipEqReg _ _ | .skipNeReg _ _ | .loadIndex _
  | .jumpOffset _ | .skipKey _ | .skipNokey _ | .setDelay _ | .setSound _ | .addIndex _ | .fontAddr _ | .bcd _
  | .storeRegs _ => false

/-- The instructions that write `PC` besides the advance every step makes (10_state.md section 1 and rule R23): jumps, call,
return, skips, `wait-key`. -/
def mayWritePc (i : Instr) : Bool :=
  match i with
  | .ret | .jump _ | .call _ | .skipEqImm _ _ | .skipNeImm _ _ | .skipEqReg _ _ | .skipNeReg _ _ | .jumpOffset _ | .skipKey _
  | .skipNokey _ | .waitKey _ => true
  | .clear | .loadImm _ _ | .addImm _ _ | .move _ _ | .or _ _ | .and _ _ | .xor _ _ | .add _ _ | .sub _ _ | .shr _ _
  | .subn _ _ | .shl _ _ | .loadIndex _ | .rand _ _ | .draw _ _ _ | .loadDelay _ | .setDelay _ | .setSound _ | .addIndex _
  | .fontAddr _ | .bcd _ | .storeRegs _ | .loadRegs _ => false

/-- The unrecognized words, exactly as rule R75 lists them by `nibble1`. -/
def unrecognized (w : Nat) : Bool :=
  match w / 0x1000 with
  | 0x0 => w != 0x00E0 && w != 0x00EE
  | 0x5 | 0x9 => w % 0x10 != 0
  | 0x8 => [0x8, 0x9, 0xA, 0xB, 0xC, 0xD, 0xF].contains (w % 0x10)
  | 0xE => !([0x9E, 0xA1].contains (w % 0x100))
  | 0xF => !([0x07, 0x0A, 0x15, 0x18, 0x1E, 0x29, 0x33, 0x55, 0x65].contains (w % 0x100))
  | _ => false

/-- The end of a run, the spec's convention (rule R235): `PC = a` and `memory[a .. a+1]` hold `jump a`, the word
`0x1000 + a`. -/
def State.finished (s : State) : Bool :=
  decide (s.pc.toNat ≤ 0xFFE) && (s.byteAt s.pc.toNat).toNat * 256 + (s.byteAt (s.pc.toNat + 1)).toNat == 0x1000 + s.pc.toNat

/-- The states a machine of some admissible configuration can be in (rule R38): from power-on (rule R231) by any sequence of
commands. -/
inductive Reachable : State → Prop where
  | powerOn (c : Config) (h : c.wf) : Reachable (State.resetWith c)
  | command (c : Command) (s t : State) (hs : Reachable s) (h : command c s = .next t) : Reachable t

/-- A safe schedule from a state: every command of it goes to a next state that is not Faulted. -/
def SafeSchedule : List Command → State → Prop
  | [], s => s.fault = none
  | c :: cs, s => ∃ t, command c s = .next t ∧ t.fault = none ∧ SafeSchedule cs t

end Sys2Proof.Machine
end

