-- ==== Sys2Proof/Certificates/Slice0/Obligations.lean ====
section
/-! DEFINITION. The statements about this machine, each from a numbered rule of spec/ or derived from named sections of it.
`exec i s` runs on a state whose `PC` already holds `pc0 + 2` (40_step_and_decode.md rule R92), so `s.pc` below is the address
of the following instruction and `s.pc - 2` is `pc0`. A frame is written `t = { s with f := t.f }`: every field but `f` is the
same, and `SameMemory s t` says that every byte of memory reads as before. -/

open Sys2Proof Sys2Proof.Machine

/-! ### Encoding -/

/-- The worked encodings of rule R83 (an inference the spec marks as derived), decoded from words written out bit by bit from
the rows of rule R74. -/
def Obligations.WorkedEncodingsDecode : Prop :=
  decodeWord 0b0000000011100000#16 = .instr .clear ∧
  decodeWord 0b0001001000001010#16 = .instr (.jump 0x20A#12) ∧
  decodeWord 0b0110001101111111#16 = .instr (.loadImm 3#4 0x7F#8) ∧
  decodeWord 0b1000000100100100#16 = .instr (.add 1#4 2#4) ∧
  decodeWord 0b1000001100000110#16 = .instr (.shr 3#4 0#4) ∧
  decodeWord 0b1000001110100110#16 = .instr (.shr 3#4 10#4) ∧
  decodeWord 0b1101000000010101#16 = .instr (.draw 0#4 1#4 5#4) ∧
  decodeWord 0b1111001001100101#16 = .instr (.loadRegs 2#4)

/-- Decode after encode returns the same instruction and operands, for every instruction with every operand at every value
its field admits; through the two bytes as well, whatever follows them (rule R82, marked derived). -/
def Obligations.DecodeEncodeReturnsInstruction : Prop :=
  ∀ i : Instr, decodeWord (encode i) = .instr i ∧ ∀ rest : List Byte, decodeBytes (encodeBytes i ++ rest) = .ok (i, rest)

/-- Encode after decode returns the same word; the `y` nibble of `shr` and `shl` is kept as an operand (rule R82). -/
def Obligations.EncodeDecodeReturnsWord : Prop :=
  ∀ (w : Word) (i : Instr), decodeWord w = .instr i → encode i = w

/-- The decoder follows the opcode map: a word decodes to an instruction exactly when a row selects it, `(w & mask) == match`,
and then to that row's instruction; so no two rows select one word (rules R74, R81). -/
def Obligations.DecoderFollowsOpcodeMap : Prop :=
  ∀ w : Word,
    (∀ i, decodeWord w = .instr i → ∃ r ∈ opcodeTable, r.selects w = true ∧ r.mnemonic = i.mnemonic) ∧
    (∀ r ∈ opcodeTable, r.selects w = true → ∃ i, decodeWord w = .instr i ∧ i.mnemonic = r.mnemonic)

/-- The unrecognized words are exactly those rule R75 lists, and the decoder answers `unknown` with the word itself. -/
def Obligations.UnrecognizedWordsAreExactlyListed : Prop :=
  ∀ w : Word, if unrecognized w.toNat then decodeWord w = .unknown w else ∃ i, decodeWord w = .instr i

/-! ### The step -/

/-- One step, all of it, for the core's own step and for the command `step(rb)` alike: a Faulted machine does nothing (R90);
a `PC` above 0xFFE faults on fetch, recording `PC`, with nothing else changed (R91); otherwise the big-endian word at `PC`, at
either parity, is decoded and its instruction runs on the state whose `PC` is advanced (R91, R92, R94), with `rb` for its
random byte in the command; an unrecognized word only advances `PC` (R95). But for `rand` an instruction with a random byte is
the instruction without. -/
def Obligations.StepFetchesAdvancesAndRuns : Prop :=
  ∀ (s : State) (rb : Byte),
    command (.step rb) s = stepWith rb s ∧
    (s.fault ≠ none → step s = .next s ∧ stepWith rb s = .next s) ∧
    (s.fault = none → 0xFFE < s.pc.toNat →
      step s = .next { s with fault := some ⟨.fetchOutOfBounds, s.pc, s.pc⟩ } ∧
      stepWith rb s = .next { s with fault := some ⟨.fetchOutOfBounds, s.pc, s.pc⟩ }) ∧
    (∀ i, s.fault = none → s.pc.toNat ≤ 0xFFE →
      decodeWord (BitVec.ofNat 16 ((s.byteAt s.pc.toNat).toNat * 256 + (s.byteAt (s.pc.toNat + 1)).toNat)) = .instr i →
      step s = exec i { s with pc := s.pc + 2#16 } ∧ stepWith rb s = execWith rb i { s with pc := s.pc + 2#16 }) ∧
    (∀ w, s.fault = none → s.pc.toNat ≤ 0xFFE →
      decodeWord (BitVec.ofNat 16 ((s.byteAt s.pc.toNat).toNat * 256 + (s.byteAt (s.pc.toNat + 1)).toNat)) = .unknown w →
      step s = .next { s with pc := s.pc + 2#16 } ∧ stepWith rb s = .next { s with pc := s.pc + 2#16 }) ∧
    (∀ i, (∀ x kk, i ≠ .rand x kk) → execWith rb i s = exec i s)

/-- Rule R95: a step at an unrecognized word leaves `PC = pc0 + 2` and every other field, memory and the fault record
unchanged, whatever the random byte. -/
def Obligations.UnknownWordOnlyAdvancesPc : Prop :=
  ∀ (s : State) (rb : Byte), s.fault = none → s.pc.toNat ≤ 0xFFE →
    unrecognized ((s.byteAt s.pc.toNat).toNat * 256 + (s.byteAt (s.pc.toNat + 1)).toNat) = true →
    ∃ t, stepWith rb s = .next t ∧ step s = .next t ∧ t.pc.toNat = s.pc.toNat + 2 ∧ t = { s with pc := t.pc } ∧
      SameMemory s t

/-- Rule R97: a step that may run has exactly two outcomes: it ends with no fault, or nothing it wrote is kept and the machine
is Faulted with a record that holds `pc0`. Premise: `SP` is at most 15, as it is in every state a run reaches (R24). -/
def Obligations.StepCompletesOrKeepsNothing : Prop :=
  ∀ (s : State) (rb : Byte), s.fault = none → s.sp.toNat ≤ 15 →
    ∃ t, stepWith rb s = .next t ∧
      (t.fault = none ∨ ∃ c w, t = { s with fault := some ⟨c, s.pc, w⟩ })

/-- Rule R93: two steps from one state with different random bytes end alike unless the instruction is `rand`. -/
def Obligations.RandomByteReachesOnlyRand : Prop :=
  ∀ (s : State) (a b : Byte), (∀ x kk, decodeWord s.fetchWord ≠ .instr (.rand x kk)) → stepWith a s = stepWith b s

/-- The core's own step is the step command with the model's next free draw as its random byte; a draw is used up only by
`rand` (the model's own bookkeeping: log entries 1 and 2). -/
def Obligations.CoreStepDrawsOneFreeByte : Prop :=
  ∀ s : State,
    step s = stepWith (Config.randomByte s.draws) s ∧
    ∀ t, step s = .next t →
      t.draws = s.draws ∨ ((∃ x kk, decodeWord s.fetchWord = .instr (.rand x kk)) ∧ t.draws = s.draws + 1)

/-- The end-of-run convention (R235): at a self-jump a step changes nothing. -/
def Obligations.FinishedRunIsFixedPoint : Prop :=
  ∀ s : State, s.fault = none → s.finished = true → step s = .next s

/-- The word the model's `withFetchWord` places is the one the next step runs (the model's own convention: log entry 16). -/
def Obligations.PlacedWordRunsNext : Prop :=
  ∀ (s : State) (w : Word) (i : Instr), Memory.wf s.config.font s.memory → decodeWord w = .instr i →
    step (s.withFetchWord 16 w.toNat) = exec i (s.withFetchWord 16 w.toNat).advance ∧
    decodeTableWord 16 w.toNat = some i

/-- A store is seen by the very next fetch (R60, marked derived): after `store-regs`, a fetch at the address of two stored
bytes reads the registers' values, the lower register as the high byte. -/
def Obligations.StoredInstructionIsFetchedNext : Prop :=
  ∀ (s : State) (x : Reg) (k : Nat), Memory.wf s.config.font s.memory → s.i.toNat + x.toNat ≤ 0xFFF → k + 1 ≤ x.toNat →
    s.pc.toNat = s.i.toNat + k →
    ∃ t, exec (.storeRegs x) s = .next t ∧ t.pc = s.pc ∧
      t.fetchWord.toNat = (s.reg (BitVec.ofNat 4 k)).toNat * 256 + (s.reg (BitVec.ofNat 4 (k + 1))).toNat

/-! ### Faults -/

/-- Rule R201, the whole table: the cause codes; the fetch fault; an instruction raises the fault the table gives it, with the
`info` of the table and the state of rule R202, exactly when the table's condition holds on the state it runs on. -/
def Obligations.FaultsAreExactlyTheTable : Prop :=
  (FaultCause.code .fetchOutOfBounds = 1 ∧ FaultCause.code .memReadOutOfBounds = 2 ∧
    FaultCause.code .memWriteOutOfBounds = 3 ∧ FaultCause.code .stackOverflow = 4 ∧
    FaultCause.code .stackUnderflow = 5 ∧ FaultCause.code .keyIndexOutOfRange = 6) ∧
  (∀ s : State, s.fault = none → 0xFFE < s.pc.toNat →
    step s = .next { s with fault := some ⟨.fetchOutOfBounds, s.pc, s.pc⟩ }) ∧
  (∀ (i : Instr) (s : State) (c : FaultCause) (w : Word), faultOf i s = some (c, w) →
    exec i s = .next (FaultedState c w s)) ∧
  (∀ (i : Instr) (s t : State), faultOf i s = none → exec i s = .next t → t.fault = s.fault)

/-- Rule R205: a Faulted machine ignores every command but `reset`, which clears the fault; read-back still answers; the
core's own step does nothing. -/
def Obligations.FaultedIgnoresAllButReset : Prop :=
  ∀ s : State, s.fault ≠ none →
    (∀ c : Command, c ≠ .reset → command c s = .next s) ∧ step s = .next s ∧
    (∃ r, response .readBack s = .data r ∧ r.fault = s.fault) ∧
    ∃ t, command .reset s = .next t ∧ t.fault = none

/-! ### Whole-machine rules -/

/-- Which instruction may write which field of the machine: the columns of 10_state.md section 1, the rules of its sections 2
to 8, and R191 of 45_keyboard_timer.md. A register is written only by the instructions of `mayWriteReg`; `PC`, after the advance
every step makes, only by those of `mayWritePc` or by a fault, which puts it back to `pc0`; the fault record only by a fault of
the table of R201. The configuration and the key table are written by none; `DT` only by `set-delay`, `ST` only by `set-sound`,
`I` only by `load-index`, `add-index`, `font-addr`, `SP` only by `call` and `return`, the stack only by `call`, memory only by
`bcd` and `store-regs`, the display only by `clear` and `draw`. -/
def Obligations.FieldsWrittenOnlyByTheirInstructions : Prop :=
  ∀ (i : Instr) (s t : State), exec i s = .next t →
    t.config = s.config ∧ t.keys = s.keys ∧
    (∀ r, mayWriteReg i r = false → t.reg r = s.reg r) ∧
    (t.pc = s.pc ∨ mayWritePc i = true ∨ (faultOf i s ≠ none ∧ t.pc = s.pc - 2#16)) ∧
    (t.fault = s.fault ∨ faultOf i s ≠ none) ∧
    (t.dt = s.dt ∨ ∃ x, i = .setDelay x ∧ t.dt = s.reg x) ∧
    (t.st = s.st ∨ ∃ x, i = .setSound x ∧ t.st = s.reg x) ∧
    (t.i = s.i ∨ (∃ nnn, i = .loadIndex nnn) ∨ (∃ x, i = .addIndex x) ∨ ∃ x, i = .fontAddr x) ∧
    (t.sp = s.sp ∨ i = .ret ∨ ∃ nnn, i = .call nnn) ∧
    (t.stack = s.stack ∨ ∃ nnn, i = .call nnn) ∧
    (SameMemory s t ∨ (∃ x, i = .bcd x) ∨ ∃ x, i = .storeRegs x) ∧
    (t.fb = s.fb ∨ i = .clear ∨ ∃ x y n, i = .draw x y n)

/-- The flag rule of 10_state.md section 3 (R21): an instruction that does not name register 15 as a destination changes `VF`
only if it is `add`, `sub`, `subn`, `shr`, `shl` or `draw`, and then `VF` is 0 or 1. -/
def Obligations.FlagWrittenOnlyAsListed : Prop :=
  ∀ (i : Instr) (s t : State), exec i s = .next t →
    t.reg vf = s.reg vf ∨
    (∃ x y, (i = .add x y ∨ i = .sub x y ∨ i = .subn x y ∨ i = .shr x y ∨ i = .shl x y) ∧
      (x ≠ vf → t.reg vf = 0#8 ∨ t.reg vf = 1#8)) ∨
    (∃ x y n, i = .draw x y n ∧ (t.reg vf = 0#8 ∨ t.reg vf = 1#8)) ∨
    (∃ kk, i = .loadImm vf kk ∨ i = .addImm vf kk ∨ i = .rand vf kk) ∨
    (∃ y, i = .move vf y ∨ i = .or vf y ∨ i = .and vf y ∨ i = .xor vf y) ∨
    i = .loadDelay vf ∨ i = .waitKey vf ∨ i = .loadRegs vf

/-! ### Invariants -/

/-- The state after reset of any admissible configuration, the default one among them, meets the invariant. -/
def Obligations.ResetMeetsInvariant : Prop :=
  State.reset.Inv ∧ ∀ c : Config, c.wf → (State.resetWith c).Inv

/-- Every step keeps the invariant, from every state that meets it. -/
def Obligations.StepKeepsInvariant : Prop :=
  ∀ s t : State, s.Inv → step s = .next t → t.Inv

/-- Every command of the host, `step(rb)` with any byte among them, keeps the invariant from every state that meets it: it
answers a next state (the model never stops there), which meets the invariant and has the same configuration. -/
def Obligations.CommandsKeepInvariant : Prop :=
  ∀ (s : State) (c : Command), s.Inv → ∃ t, command c s = .next t ∧ t.Inv ∧ t.config = s.config

/-- From power-on, every schedule of commands runs to its end (the model never stops) in a state that meets the invariant of
rule R38. -/
def Obligations.SchedulesRunAndKeepInvariant : Prop :=
  ∀ (c : Config) (cs : List Command), c.wf →
    ∃ t, runCommands cs (State.resetWith c) = .next t ∧ t.Inv ∧ t.config = c

/-! ### Control transfer -/

/-- `jump nnn` (R101). -/
def Obligations.JumpSetsPc : Prop :=
  ∀ nnn : Imm12, Encodes (0x1000 + nnn.toNat) (.jump nnn) ∧
    ∀ s : State, ∃ t, exec (.jump nnn) s = .next t ∧ t.pc.toNat = nnn.toNat ∧ t = { s with pc := t.pc } ∧ SameMemory s t

/-- `call nnn` (R102): the incremented `SP` is the slot the advanced `PC` goes to; at `SP >= 15` it faults. -/
def Obligations.CallPushesReturnAddress : Prop :=
  ∀ nnn : Imm12, Encodes (0x2000 + nnn.toNat) (.call nnn) ∧
    ∀ s : State,
      (s.sp.toNat < 15 →
        ∃ t, exec (.call nnn) s = .next t ∧ t.pc.toNat = nnn.toNat ∧ t.sp.toNat = s.sp.toNat + 1 ∧
          (∀ k : Fin 16, t.stack[k] = if k.val = s.sp.toNat + 1 then s.pc else s.stack[k]) ∧
          t = { s with pc := t.pc, sp := t.sp, stack := t.stack } ∧ SameMemory s t) ∧
      (15 ≤ s.sp.toNat → exec (.call nnn) s = .next (FaultedState .stackOverflow (s.sp.setWidth 16) s))

/-- `return` (R100) where `SP` names a slot, 1 to 15, and at `SP = 0`. The slot keeps its value. -/
def Obligations.ReturnPopsReturnAddress : Prop :=
  Encodes 0x00EE .ret ∧
  ∀ s : State,
    (∀ k : Fin 16, 1 ≤ k.val → s.sp.toNat = k.val →
      ∃ t, exec .ret s = .next t ∧ t.pc = s.stack[k] ∧ t.sp.toNat + 1 = s.sp.toNat ∧
        t = { s with pc := t.pc, sp := t.sp } ∧ SameMemory s t) ∧
    (s.sp.toNat = 0 → exec .ret s = .next (FaultedState .stackUnderflow 0#16 s))

/-- `return` with an `SP` above 15 stops: `stack[SP]` does not exist and the spec gives no effect (the model's choice, log
entry 4; no run reaches such a state). -/
def Obligations.ReturnBeyondStackStops : Prop :=
  ∀ s : State, 15 < s.sp.toNat → exec .ret s = .fault (.noSuchStackSlot s.sp)

/-- Call and return are inverse (R109, marked derived): from `SP` below 15, `call` then `return` gives back the advanced `PC`
and the depth; nothing but the stack slot the call wrote differs. -/
def Obligations.CallThenReturnComesBack : Prop :=
  ∀ (s : State) (nnn : Imm12), s.sp.toNat < 15 →
    ∃ t u, exec (.call nnn) s = .next t ∧ exec .ret { t with pc := t.pc + 2#16 } = .next u ∧
      u = { s with stack := u.stack } ∧ SameMemory s u ∧
      ∀ k : Fin 16, k.val ≠ s.sp.toNat + 1 → u.stack[k] = s.stack[k]

/-- `skip-eq-imm` (R103) and `skip-ne-imm` (R104). -/
def Obligations.ImmediateSkips : Prop :=
  ∀ (x : Reg) (kk : Byte),
    Encodes (0x3000 + 256 * x.toNat + kk.toNat) (.skipEqImm x kk) ∧
    Encodes (0x4000 + 256 * x.toNat + kk.toNat) (.skipNeImm x kk) ∧
    ∀ s : State,
      (∃ t, exec (.skipEqImm x kk) s = .next t ∧ t.pc = (if s.reg x = kk then s.pc + 2#16 else s.pc) ∧
        t = { s with pc := t.pc } ∧ SameMemory s t) ∧
      ∃ t, exec (.skipNeImm x kk) s = .next t ∧ t.pc = (if s.reg x = kk then s.pc else s.pc + 2#16) ∧
        t = { s with pc := t.pc } ∧ SameMemory s t

/-- `skip-eq-reg` (R105) and `skip-ne-reg` (R106); with `x = y` the first always skips and the second never. -/
def Obligations.RegisterSkips : Prop :=
  ∀ x y : Reg,
    Encodes (0x5000 + 256 * x.toNat + 16 * y.toNat) (.skipEqReg x y) ∧
    Encodes (0x9000 + 256 * x.toNat + 16 * y.toNat) (.skipNeReg x y) ∧
    ∀ s : State,
      (∃ t, exec (.skipEqReg x y) s = .next t ∧ t.pc = (if s.reg x = s.reg y then s.pc + 2#16 else s.pc) ∧
        t = { s with pc := t.pc } ∧ SameMemory s t) ∧
      ∃ t, exec (.skipNeReg x y) s = .next t ∧ t.pc = (if s.reg x = s.reg y then s.pc else s.pc + 2#16) ∧
        t = { s with pc := t.pc } ∧ SameMemory s t

/-- `jump-offset nnn` (R107): the sum is exact, never reduced to 12 bits. -/
def Obligations.JumpOffsetAddsV0 : Prop :=
  ∀ nnn : Imm12, Encodes (0xB000 + nnn.toNat) (.jumpOffset nnn) ∧
    ∀ s : State, ∃ t, exec (.jumpOffset nnn) s = .next t ∧ t.pc.toNat = nnn.toNat + (s.reg 0#4).toNat ∧
      t = { s with pc := t.pc } ∧ SameMemory s t

/-! ### Registers and ALU -/

/-- The ALU table (R120): every result, and the flag of the operations that have one. -/
def Obligations.AluComputesTheTable : Prop :=
  ∀ a b : Byte,
    (aluResult .pass a b = b ∧ aluFlag .pass a b = none) ∧
    (aluResult .or a b = a ||| b ∧ aluFlag .or a b = none) ∧
    (aluResult .and a b = a &&& b ∧ aluFlag .and a b = none) ∧
    (aluResult .xor a b = a ^^^ b ∧ aluFlag .xor a b = none) ∧
    ((aluResult .add a b).toNat = (a.toNat + b.toNat) % 256 ∧ aluFlag .add a b = some (decide (255 < a.toNat + b.toNat))) ∧
    ((aluResult .sub a b).toNat = (a.toNat + 256 - b.toNat) % 256 ∧ aluFlag .sub a b = some (decide (b.toNat ≤ a.toNat))) ∧
    ((aluResult .shr a b).toNat = a.toNat / 2 ∧ aluFlag .shr a b = some (a.getLsbD 0)) ∧
    ((aluResult .shl a b).toNat = 2 * a.toNat % 256 ∧ aluFlag .shl a b = some (a.getLsbD 7))

/-- `load-imm Vx,kk` (R121). -/
def Obligations.LoadImmSetsRegister : Prop :=
  ∀ (x : Reg) (kk : Byte), Encodes (0x6000 + 256 * x.toNat + kk.toNat) (.loadImm x kk) ∧
    ∀ s : State, ∃ t, exec (.loadImm x kk) s = .next t ∧ t.reg x = kk ∧ (∀ r, r ≠ x → t.reg r = s.reg r) ∧
      t = { s with v := t.v } ∧ SameMemory s t

/-- `add-imm Vx,kk` (R122): it wraps, and `VF` is untouched unless it is the destination. -/
def Obligations.AddImmWrapsWithoutFlag : Prop :=
  ∀ (x : Reg) (kk : Byte), Encodes (0x7000 + 256 * x.toNat + kk.toNat) (.addImm x kk) ∧
    ∀ s : State, ∃ t, exec (.addImm x kk) s = .next t ∧ (t.reg x).toNat = ((s.reg x).toNat + kk.toNat) % 256 ∧
      (∀ r, r ≠ x → t.reg r = s.reg r) ∧ t = { s with v := t.v } ∧ SameMemory s t

/-- `move` (R123), `or` (R124), `and` (R125), `xor` (R126): the destination is the only register written; `VF` is neither set
nor reset. -/
def Obligations.MoveAndBitwiseWriteDestinationOnly : Prop :=
  ∀ x y : Reg,
    Encodes (0x8000 + 256 * x.toNat + 16 * y.toNat) (.move x y) ∧
    Encodes (0x8001 + 256 * x.toNat + 16 * y.toNat) (.or x y) ∧
    Encodes (0x8002 + 256 * x.toNat + 16 * y.toNat) (.and x y) ∧
    Encodes (0x8003 + 256 * x.toNat + 16 * y.toNat) (.xor x y) ∧
    ∀ s : State,
      (∃ t, exec (.move x y) s = .next t ∧ t.reg x = s.reg y ∧ (∀ r, r ≠ x → t.reg r = s.reg r) ∧
        t = { s with v := t.v } ∧ SameMemory s t) ∧
      (∃ t, exec (.or x y) s = .next t ∧ t.reg x = s.reg x ||| s.reg y ∧ (∀ r, r ≠ x → t.reg r = s.reg r) ∧
        t = { s with v := t.v } ∧ SameMemory s t) ∧
      (∃ t, exec (.and x y) s = .next t ∧ t.reg x = s.reg x &&& s.reg y ∧ (∀ r, r ≠ x → t.reg r = s.reg r) ∧
        t = { s with v := t.v } ∧ SameMemory s t) ∧
      ∃ t, exec (.xor x y) s = .next t ∧ t.reg x = s.reg x ^^^ s.reg y ∧ (∀ r, r ≠ x → t.reg r = s.reg r) ∧
        t = { s with v := t.v } ∧ SameMemory s t

/-- `add Vx,Vy` (R127): the sum modulo 256, `VF` the carry; with `x = 15` the carry is what is left. -/
def Obligations.AddSetsCarry : Prop :=
  ∀ x y : Reg, Encodes (0x8004 + 256 * x.toNat + 16 * y.toNat) (.add x y) ∧
    ∀ s : State, ∃ t, exec (.add x y) s = .next t ∧
      t.reg vf = (if 255 < (s.reg x).toNat + (s.reg y).toNat then 1#8 else 0#8) ∧
      (x ≠ vf → (t.reg x).toNat = ((s.reg x).toNat + (s.reg y).toNat) % 256) ∧
      (∀ r, r ≠ x → r ≠ vf → t.reg r = s.reg r) ∧ t = { s with v := t.v } ∧ SameMemory s t

/-- `sub Vx,Vy` (R128) and `subn Vx,Vy` (R130): the difference modulo 256 in `V[x]`, `VF` 1 exactly when there is no borrow
on the values before the instruction; with `x = 15` the flag is what is left. -/
def Obligations.SubtractSetsNoBorrow : Prop :=
  ∀ x y : Reg,
    Encodes (0x8005 + 256 * x.toNat + 16 * y.toNat) (.sub x y) ∧
    Encodes (0x8007 + 256 * x.toNat + 16 * y.toNat) (.subn x y) ∧
    ∀ s : State,
      (∃ t, exec (.sub x y) s = .next t ∧
        t.reg vf = (if (s.reg y).toNat ≤ (s.reg x).toNat then 1#8 else 0#8) ∧
        (x ≠ vf → (t.reg x).toNat = ((s.reg x).toNat + 256 - (s.reg y).toNat) % 256) ∧
        (∀ r, r ≠ x → r ≠ vf → t.reg r = s.reg r) ∧ t = { s with v := t.v } ∧ SameMemory s t) ∧
      ∃ t, exec (.subn x y) s = .next t ∧
        t.reg vf = (if (s.reg x).toNat ≤ (s.reg y).toNat then 1#8 else 0#8) ∧
        (x ≠ vf → (t.reg x).toNat = ((s.reg y).toNat + 256 - (s.reg x).toNat) % 256) ∧
        (∀ r, r ≠ x → r ≠ vf → t.reg r = s.reg r) ∧ t = { s with v := t.v } ∧ SameMemory s t

/-- `shr Vx` (R129): the ignored nibble `y` may be anything and is neither read nor written as a register; with `x = 15`,
`VF` ends as 0. -/
def Obligations.ShrMovesLowBitToFlag : Prop :=
  ∀ x y : Reg, Encodes (0x8006 + 256 * x.toNat + 16 * y.toNat) (.shr x y) ∧
    ∀ s : State, ∃ t, exec (.shr x y) s = .next t ∧
      (x ≠ vf → t.reg vf = (if (s.reg x).toNat % 2 = 1 then 1#8 else 0#8) ∧ (t.reg x).toNat = (s.reg x).toNat / 2) ∧
      (x = vf → t.reg vf = 0#8) ∧
      (∀ r, r ≠ x → r ≠ vf → t.reg r = s.reg r) ∧ t = { s with v := t.v } ∧ SameMemory s t

/-- `shl Vx` (R131): as `shr` with bit 7; with `x = 15`, `VF` ends as 2 if its bit 7 was set and 0 otherwise. -/
def Obligations.ShlMovesHighBitToFlag : Prop :=
  ∀ x y : Reg, Encodes (0x800E + 256 * x.toNat + 16 * y.toNat) (.shl x y) ∧
    ∀ s : State, ∃ t, exec (.shl x y) s = .next t ∧
      (x ≠ vf → t.reg vf = (if 128 ≤ (s.reg x).toNat then 1#8 else 0#8) ∧
        (t.reg x).toNat = 2 * (s.reg x).toNat % 256) ∧
      (x = vf → t.reg vf = (if 128 ≤ (s.reg x).toNat then 2#8 else 0#8)) ∧
      (∀ r, r ≠ x → r ≠ vf → t.reg r = s.reg r) ∧ t = { s with v := t.v } ∧ SameMemory s t

/-- `rand Vx,kk` (R132): `kk & RB`, whatever byte `RB` the step is given; as the instruction alone, and as the whole command
`step(RB)` at a state whose word at `PC` is this `rand`. Of the model's own draw count nothing is said. -/
def Obligations.RandMasksTheRandomByte : Prop :=
  ∀ (x : Reg) (kk : Byte), Encodes (0xC000 + 256 * x.toNat + kk.toNat) (.rand x kk) ∧
    ∀ (s : State) (rb : Byte),
      (∃ t, execWith rb (.rand x kk) s = .next t ∧ t.reg x = kk &&& rb ∧
        (∀ r, r ≠ x → t.reg r = s.reg r) ∧ t = { s with v := t.v, draws := t.draws } ∧ SameMemory s t) ∧
      (s.fault = none → s.pc.toNat ≤ 0xFFE →
        (s.byteAt s.pc.toNat).toNat * 256 + (s.byteAt (s.pc.toNat + 1)).toNat = 0xC000 + 256 * x.toNat + kk.toNat →
        ∃ t, command (.step rb) s = .next t ∧ t.reg x = kk &&& rb ∧ t.pc.toNat = s.pc.toNat + 2 ∧
          (∀ r, r ≠ x → t.reg r = s.reg r) ∧ t = { s with v := t.v, pc := t.pc, draws := t.draws } ∧ SameMemory s t)

/-- `rand` as the core's own execution runs it: the byte is the model's free draw number `draws`, of which nothing is known,
and one draw is counted (the model's own field and convention: log entries 1 and 2). -/
def Obligations.CoreRandUsesFreeDraw : Prop :=
  ∀ (x : Reg) (kk : Byte) (s : State),
    ∃ t, exec (.rand x kk) s = .next t ∧ t.reg x = kk &&& Config.randomByte s.draws ∧
      (∀ r, r ≠ x → t.reg r = s.reg r) ∧ t = { s with v := t.v, draws := s.draws + 1 } ∧ SameMemory s t

/-! ### Index register and memory -/

/-- `load-index nnn` (R140), `add-index Vx` (R141: modulo 65536, and no register, so no flag, is written), `font-addr Vx` (R142:
the whole byte times 5). -/
def Obligations.IndexInstructionsSetI : Prop :=
  (∀ nnn : Imm12, Encodes (0xA000 + nnn.toNat) (.loadIndex nnn) ∧
    ∀ s : State, ∃ t, exec (.loadIndex nnn) s = .next t ∧ t.i.toNat = nnn.toNat ∧ t = { s with i := t.i } ∧
      SameMemory s t) ∧
  (∀ x : Reg, Encodes (0xF01E + 256 * x.toNat) (.addIndex x) ∧
    ∀ s : State, ∃ t, exec (.addIndex x) s = .next t ∧ t.i.toNat = (s.i.toNat + (s.reg x).toNat) % 65536 ∧
      t = { s with i := t.i } ∧ SameMemory s t) ∧
  ∀ x : Reg, Encodes (0xF029 + 256 * x.toNat) (.fontAddr x) ∧
    ∀ s : State, ∃ t, exec (.fontAddr x) s = .next t ∧ t.i.toNat = (s.reg x).toNat * 5 ∧ t = { s with i := t.i } ∧
      SameMemory s t

/-- `bcd Vx` (R143): three digits at `I`, `I+1`, `I+2` and no other byte; beyond 0xFFF it faults with nothing written.
Premise: memory in canonical form (an invariant of every run). -/
def Obligations.BcdStoresThreeDigits : Prop :=
  ∀ x : Reg, Encodes (0xF033 + 256 * x.toNat) (.bcd x) ∧
    ∀ s : State,
      (Memory.wf s.config.font s.memory → s.base + 2 ≤ 0xFFF →
        ∃ t, exec (.bcd x) s = .next t ∧
          (t.byteAt s.base).toNat = (s.reg x).toNat / 100 ∧
          (t.byteAt (s.base + 1)).toNat = (s.reg x).toNat / 10 % 10 ∧
          (t.byteAt (s.base + 2)).toNat = (s.reg x).toNat % 10 ∧
          (∀ a, a < s.base ∨ s.base + 2 < a → t.byteAt a = s.byteAt a) ∧ t = { s with memory := t.memory }) ∧
      (0xFFF < s.base + 2 → exec (.bcd x) s = .next (FaultedState .memWriteOutOfBounds s.i s))

/-- `store-regs Vx` (R144): `V[k]` at `I + k` for `k` up to `x`, no other byte, `I` unchanged; beyond 0xFFF it faults with
nothing written. -/
def Obligations.StoreRegsCopiesRangeToMemory : Prop :=
  ∀ x : Reg, Encodes (0xF055 + 256 * x.toNat) (.storeRegs x) ∧
    ∀ s : State,
      (Memory.wf s.config.font s.memory → s.base + x.toNat ≤ 0xFFF →
        ∃ t, exec (.storeRegs x) s = .next t ∧
          (∀ k : Reg, k.toNat ≤ x.toNat → t.byteAt (s.base + k.toNat) = s.reg k) ∧
          (∀ a, a < s.base ∨ s.base + x.toNat < a → t.byteAt a = s.byteAt a) ∧ t = { s with memory := t.memory }) ∧
      (0xFFF < s.base + x.toNat → exec (.storeRegs x) s = .next (FaultedState .memWriteOutOfBounds s.i s))

/-- `load-regs Vx` (R145): `memory[I + k]` in `V[k]` for `k` up to `x`, the registers above `x`, `I` and memory unchanged;
beyond 0xFFF it faults with nothing written. -/
def Obligations.LoadRegsCopiesRangeFromMemory : Prop :=
  ∀ x : Reg, Encodes (0xF065 + 256 * x.toNat) (.loadRegs x) ∧
    ∀ s : State,
      (s.base + x.toNat ≤ 0xFFF →
        ∃ t, exec (.loadRegs x) s = .next t ∧
          (∀ r : Reg, t.reg r = if r.toNat ≤ x.toNat then s.byteAt (s.base + r.toNat) else s.reg r) ∧
          t = { s with v := t.v } ∧ SameMemory s t) ∧
      (0xFFF < s.base + x.toNat → exec (.loadRegs x) s = .next (FaultedState .memReadOutOfBounds s.i s))

/-- Store then load is the identity (R146, marked derived): after `store-regs Vx`, in any state with the same `I` and the same
bytes at `I .. I+x`, whatever its registers, `load-regs Vx` brings back the stored registers. -/
def Obligations.StoreThenLoadRestoresRegisters : Prop :=
  ∀ (s : State) (x : Reg), Memory.wf s.config.font s.memory → s.base + x.toNat ≤ 0xFFF →
    ∃ t, exec (.storeRegs x) s = .next t ∧
      ∀ u : State, u.i = t.i → (∀ k : Reg, k.toNat ≤ x.toNat → u.byteAt (t.base + k.toNat) = t.byteAt (t.base + k.toNat)) →
        ∃ v, exec (.loadRegs x) u = .next v ∧ ∀ r : Reg, r.toNat ≤ x.toNat → v.reg r = s.reg r

/-! ### Display -/

/-- `clear` (R163): every cell Off, `VF` not written. -/
def Obligations.ClearTurnsEveryCellOff : Prop :=
  Encodes 0x00E0 .clear ∧
  ∀ s : State, ∃ t, exec .clear s = .next t ∧ t.fb.length = s.config.width * s.config.height ∧
    (∀ j < s.config.width * s.config.height, t.fb[j]? = some false) ∧ t = { s with fb := t.fb } ∧ SameMemory s t

/-- `draw Vx,Vy,n` (R164): the `n` bytes from `I` are plotted at (`V[x]`, `V[y]`), sampled before `VF` is written; `VF` is
always written, 1 or 0; with `n = 0` no cell changes and `VF` is 0; beyond the range it faults with nothing changed. -/
def Obligations.DrawPlotsSpriteAndSetsFlag : Prop :=
  ∀ (x y : Reg) (n : Nibble), Encodes (0xD000 + 256 * x.toNat + 16 * y.toNat + n.toNat) (.draw x y n) ∧
    ∀ s : State,
      (s.base + n.toNat ≤ 0x1000 →
        ∃ t, exec (.draw x y n) s = .next t ∧
          (t.fb, decide (t.reg vf = 1#8)) =
            drawBytes s.config.width s.config.height (s.reg x).toNat (s.reg y).toNat
              ((List.range n.toNat).map fun r => s.byteAt (s.base + r)) s.fb ∧
          (t.reg vf = 0#8 ∨ t.reg vf = 1#8) ∧ (n = 0#4 → t.fb = s.fb ∧ t.reg vf = 0#8) ∧
          (∀ r, r ≠ vf → t.reg r = s.reg r) ∧ t = { s with v := t.v, fb := t.fb } ∧ SameMemory s t) ∧
      (0x1000 < s.base + n.toNat → exec (.draw x y n) s = .next (FaultedState .memReadOutOfBounds s.i s))

/-- The plotter is the loop of rule R161, rows ascending and columns ascending, with the collision of rule R162: one fold over
the pixels in that order, each seeing the cells the earlier ones left, for every `W`, `H` and position. -/
def Obligations.PlotterFollowsTheLoop : Prop :=
  ∀ (W H x y : Nat) (bytes : List Byte) (fb : List Bool),
    drawBytes W H x y bytes fb =
      ((List.range bytes.length).flatMap fun r => (List.range 8).map fun c => (r, c)).foldl
        (fun (p : List Bool × Bool) (rc : Nat × Nat) =>
          let j := (y + rc.1) % H * W + (x + rc.2) % W
          let bit := (bytes.getD rc.1 0#8).getLsbD (7 - rc.2)
          let cell := p.1.getD j false
          (p.1.set j (cell ^^ bit), p.2 || (bit && cell)))
        (fb, false)

/-- The first case of rule R165: where no two pixels of a draw can meet (`W >= 8`, `H >= n`), the display is the XOR of the old display and the
sprite's mask, and the collision is the OR of their AND, on the display as it was before the draw. -/
def Obligations.SpriteIsXorOfMask : Prop :=
  ∀ (W H x y : Nat) (bytes : List Byte) (fb : List Bool), 8 ≤ W → 1 ≤ H → bytes.length ≤ H → fb.length = W * H →
    let mask : Nat → Bool := fun j => (List.range bytes.length).any fun r => (List.range 8).any fun c =>
      decide ((y + r) % H * W + (x + c) % W = j) && (bytes.getD r 0#8).getLsbD (7 - c)
    (drawBytes W H x y bytes fb).1.length = W * H ∧
    (∀ j < W * H, (drawBytes W H x y bytes fb).1.getD j false = (fb.getD j false ^^ mask j)) ∧
    (drawBytes W H x y bytes fb).2 = (List.range (W * H)).any fun j => fb.getD j false && mask j

/-- Double draw restores (R167, marked derived): with no repeated cell and the position not in `VF`, a second `draw` of the
same sprite gives back the display, and its flag is 1 exactly when the first left a sprite-1 cell On. -/
def Obligations.DoubleDrawRestoresDisplay : Prop :=
  ∀ (s : State) (x y : Reg) (n : Nibble), x ≠ vf → y ≠ vf → 8 ≤ s.config.width → 1 ≤ s.config.height →
    n.toNat ≤ s.config.height → s.fb.length = s.config.width * s.config.height → s.base + n.toNat ≤ 0x1000 →
    ∃ t u, exec (.draw x y n) s = .next t ∧ exec (.draw x y n) t = .next u ∧ u.fb = s.fb ∧
      (u.reg vf = 1#8 ↔ ∃ r c, r < n.toNat ∧ c < 8 ∧ (s.byteAt (s.base + r)).getLsbD (7 - c) = true ∧
        t.fb.getD (((s.reg y).toNat + r) % s.config.height * s.config.width + ((s.reg x).toNat + c) % s.config.width) false
          = true)

/-! ### Keys and timers -/

/-- `skip-key` (R180) and `skip-nokey` (R181): the key is the one the register's value numbers; a value above 15 faults. -/
def Obligations.KeySkipsTestNumberedKey : Prop :=
  ∀ x : Reg, Encodes (0xE09E + 256 * x.toNat) (.skipKey x) ∧ Encodes (0xE0A1 + 256 * x.toNat) (.skipNokey x) ∧
    ∀ s : State,
      (∀ k : Reg, (s.reg x).toNat = k.toNat →
        (∃ t, exec (.skipKey x) s = .next t ∧ t.pc = (if s.key k then s.pc + 2#16 else s.pc) ∧ t = { s with pc := t.pc } ∧
          SameMemory s t) ∧
        ∃ t, exec (.skipNokey x) s = .next t ∧ t.pc = (if s.key k then s.pc else s.pc + 2#16) ∧ t = { s with pc := t.pc } ∧
          SameMemory s t) ∧
      (15 < (s.reg x).toNat →
        exec (.skipKey x) s = .next (FaultedState .keyIndexOutOfRange ((s.reg x).setWidth 16) s) ∧
        exec (.skipNokey x) s = .next (FaultedState .keyIndexOutOfRange ((s.reg x).setWidth 16) s))

/-- `wait-key Vx` (R182): with no key pressed `PC` goes back to `pc0` and nothing else changes, so that the whole step leaves
the state exactly as it was; else `V[x]` is the lowest pressed key and `PC` stays. -/
def Obligations.WaitKeyStallsOrTakesLowestKey : Prop :=
  ∀ x : Reg, Encodes (0xF00A + 256 * x.toNat) (.waitKey x) ∧
    ∀ s : State,
      ((∀ k, s.key k = false) →
        (∃ t, exec (.waitKey x) s = .next t ∧ t.pc = s.pc - 2#16 ∧ t = { s with pc := t.pc } ∧ SameMemory s t) ∧
        (s.fault = none → s.pc.toNat ≤ 0xFFE → decodeWord s.fetchWord = .instr (.waitKey x) → step s = .next s)) ∧
      (∀ k : Reg, s.key k = true → (∀ j : Reg, j.toNat < k.toNat → s.key j = false) →
        ∃ t, exec (.waitKey x) s = .next t ∧ (t.reg x).toNat = k.toNat ∧ (∀ r, r ≠ x → t.reg r = s.reg r) ∧
          t = { s with v := t.v } ∧ SameMemory s t)

/-- `load-delay Vx` (R183). -/
def Obligations.LoadDelayReadsTimer : Prop :=
  ∀ x : Reg, Encodes (0xF007 + 256 * x.toNat) (.loadDelay x) ∧
    ∀ s : State, ∃ t, exec (.loadDelay x) s = .next t ∧ t.reg x = s.dt ∧ (∀ r, r ≠ x → t.reg r = s.reg r) ∧
      t = { s with v := t.v } ∧ SameMemory s t

/-- `set-delay Vx` (R184) and `set-sound Vx` (R185). -/
def Obligations.TimerWritesSetOneTimer : Prop :=
  ∀ x : Reg, Encodes (0xF015 + 256 * x.toNat) (.setDelay x) ∧ Encodes (0xF018 + 256 * x.toNat) (.setSound x) ∧
    ∀ s : State,
      (∃ t, exec (.setDelay x) s = .next t ∧ t.dt = s.reg x ∧ t = { s with dt := t.dt } ∧ SameMemory s t) ∧
      ∃ t, exec (.setSound x) s = .next t ∧ t.st = s.reg x ∧ t = { s with st := t.st } ∧ SameMemory s t

/-! ### Host commands -/

/-- The `reset` command (R230, R37), accepted in every state: every field at its reset value, the configuration kept. -/
def Obligations.ResetCommandSetsEveryField : Prop :=
  ∀ s : State, ∃ t, command .reset s = .next t ∧ t.config = s.config ∧ (∀ r, t.reg r = 0#8) ∧ t.i = 0#16 ∧
    t.pc = 0x200#16 ∧ t.sp = 0#8 ∧ (∀ k : Fin 16, t.stack[k] = 0#16) ∧ t.dt = 0#8 ∧ t.st = 0#8 ∧
    (∀ a : Fin 80, t.byteAt a.val = s.config.font[a]) ∧ (∀ a, 80 ≤ a → a ≤ 0xFFF → t.byteAt a = 0#8) ∧
    t.fb.length = s.config.width * s.config.height ∧ (∀ b ∈ t.fb, b = false) ∧ (∀ k, t.key k = false) ∧ t.fault = none

/-- Power-on is the state after `reset` (R231): `reset` on a machine of any configuration, in any state, gives that
configuration's power-on state, for the default configuration the state after reset of the core (up to the model's own count
of random draws). -/
def Obligations.PowerOnIsStateAfterReset : Prop :=
  ∀ s : State, ∃ t, command .reset s = .next t ∧ { t with draws := 0 } = State.resetWith s.config ∧
    (s.config = State.reset.config → { t with draws := State.reset.draws } = State.reset)

/-- `load_program` (R232, R208): memory only, the image at 0x200 and the font at 0, every other byte as it was; an image above
3584 bytes is rejected whole as "program too large"; ignored while Faulted. -/
def Obligations.LoadProgramWritesImageAndFont : Prop :=
  ∀ (s : State) (bytes : List Byte),
    (s.fault = none → Memory.wf s.config.font s.memory → bytes.length ≤ 3584 →
      ∃ t, command (.loadProgram bytes) s = .next t ∧ response (.loadProgram bytes) s = .done ∧
        (∀ k, k < bytes.length → t.byteAt (0x200 + k) = bytes.getD k 0#8) ∧
        (∀ a : Fin 80, t.byteAt a.val = s.config.font[a]) ∧
        (∀ a, 80 ≤ a → a < 0x200 ∨ 0x200 + bytes.length ≤ a → t.byteAt a = s.byteAt a) ∧
        t = { s with memory := t.memory }) ∧
    (s.fault = none → 3584 < bytes.length →
      command (.loadProgram bytes) s = .next s ∧ response (.loadProgram bytes) s = .programTooLarge) ∧
    (s.fault ≠ none → command (.loadProgram bytes) s = .next s)

/-- `tick_timers` (R186): each nonzero timer one lower, a timer at 0 stays there (`-` is cut off at 0), nothing else changes;
ignored while Faulted; after `n` ticks with no write in between, a timer that held `v` holds `max(v - n, 0)`. -/
def Obligations.TicksLowerTimersToZero : Prop :=
  ∀ s : State,
    (s.fault = none →
      (∃ t, command .tickTimers s = .next t ∧ t.dt.toNat = s.dt.toNat - 1 ∧ t.st.toNat = s.st.toNat - 1 ∧
        t = { s with dt := t.dt, st := t.st } ∧ SameMemory s t) ∧
      ∀ n : Nat, ∃ t, runCommands (List.replicate n .tickTimers) s = .next t ∧ t.dt.toNat = s.dt.toNat - n ∧
        t.st.toNat = s.st.toNat - n ∧ t = { s with dt := t.dt, st := t.st }) ∧
    (s.fault ≠ none → command .tickTimers s = .next s)

/-- `set_key` and `unset_key` (R187): one key bit and nothing else; an index above 15, or a Faulted machine: no effect. -/
def Obligations.KeyCommandsSetOneBit : Prop :=
  ∀ (s : State) (k : Nat),
    (∀ j : Reg, s.fault = none → k = j.toNat →
      (∃ t, command (.setKey k) s = .next t ∧ (∀ q, t.key q = if q = j then true else s.key q) ∧
        t = { s with keys := t.keys } ∧ SameMemory s t) ∧
      ∃ t, command (.unsetKey k) s = .next t ∧ (∀ q, t.key q = if q = j then false else s.key q) ∧
        t = { s with keys := t.keys } ∧ SameMemory s t) ∧
    (15 < k ∨ s.fault ≠ none → command (.setKey k) s = .next s ∧ command (.unsetKey k) s = .next s)

/-- Read-back (R36): no state changes, and the data are the memory's bytes, the display with its dimensions, the key table and
the fault record (R202). That they hold every other field too is the model's observation of a run, no accessor of the block
(log entry 18, decision D23). -/
def Obligations.ReadBackChangesNothing : Prop :=
  ∀ s : State, command .readBack s = .next s ∧
    ∃ r : ReadBack, response .readBack s = .data r ∧ r.memory.length = 4096 ∧
      (∀ a < 4096, r.memory[a]? = some (s.byteAt a)) ∧ r.cells = s.fb ∧ r.width = s.config.width ∧
      r.height = s.config.height ∧ r.keys = s.keys ∧ r.fault = s.fault ∧ r.v = s.v ∧ r.i = s.i ∧ r.pc = s.pc ∧
      r.sp = s.sp ∧ r.stack = s.stack ∧ r.dt = s.dt ∧ r.st = s.st
end

