-- ==== Sys2Proof/Laws/State.lean ====
section
/-! SUPPORT. One lemma per field and update of the state, true by rfl, so that no later proof unfolds a record update. -/

namespace Sys2Proof.Machine

/-! ### `setReg` -/

@[simp] theorem State.setReg_config (s : State) (r : Reg) (b : Byte) : (s.setReg r b).config = s.config := rfl
@[simp] theorem State.setReg_v (s : State) (r : Reg) (b : Byte) : (s.setReg r b).v = s.v.set r.toNat b := rfl
@[simp] theorem State.setReg_i (s : State) (r : Reg) (b : Byte) : (s.setReg r b).i = s.i := rfl
@[simp] theorem State.setReg_pc (s : State) (r : Reg) (b : Byte) : (s.setReg r b).pc = s.pc := rfl
@[simp] theorem State.setReg_sp (s : State) (r : Reg) (b : Byte) : (s.setReg r b).sp = s.sp := rfl
@[simp] theorem State.setReg_stack (s : State) (r : Reg) (b : Byte) : (s.setReg r b).stack = s.stack := rfl
@[simp] theorem State.setReg_dt (s : State) (r : Reg) (b : Byte) : (s.setReg r b).dt = s.dt := rfl
@[simp] theorem State.setReg_st (s : State) (r : Reg) (b : Byte) : (s.setReg r b).st = s.st := rfl
@[simp] theorem State.setReg_memory (s : State) (r : Reg) (b : Byte) : (s.setReg r b).memory = s.memory := rfl
@[simp] theorem State.setReg_fb (s : State) (r : Reg) (b : Byte) : (s.setReg r b).fb = s.fb := rfl
@[simp] theorem State.setReg_keys (s : State) (r : Reg) (b : Byte) : (s.setReg r b).keys = s.keys := rfl
@[simp] theorem State.setReg_fault (s : State) (r : Reg) (b : Byte) : (s.setReg r b).fault = s.fault := rfl
@[simp] theorem State.setReg_draws (s : State) (r : Reg) (b : Byte) : (s.setReg r b).draws = s.draws := rfl

/-! ### `setI` -/

@[simp] theorem State.setI_config (s : State) (w : Word) : (s.setI w).config = s.config := rfl
@[simp] theorem State.setI_v (s : State) (w : Word) : (s.setI w).v = s.v := rfl
@[simp] theorem State.setI_i (s : State) (w : Word) : (s.setI w).i = w := rfl
@[simp] theorem State.setI_pc (s : State) (w : Word) : (s.setI w).pc = s.pc := rfl
@[simp] theorem State.setI_sp (s : State) (w : Word) : (s.setI w).sp = s.sp := rfl
@[simp] theorem State.setI_stack (s : State) (w : Word) : (s.setI w).stack = s.stack := rfl
@[simp] theorem State.setI_dt (s : State) (w : Word) : (s.setI w).dt = s.dt := rfl
@[simp] theorem State.setI_st (s : State) (w : Word) : (s.setI w).st = s.st := rfl
@[simp] theorem State.setI_memory (s : State) (w : Word) : (s.setI w).memory = s.memory := rfl
@[simp] theorem State.setI_fb (s : State) (w : Word) : (s.setI w).fb = s.fb := rfl
@[simp] theorem State.setI_keys (s : State) (w : Word) : (s.setI w).keys = s.keys := rfl
@[simp] theorem State.setI_fault (s : State) (w : Word) : (s.setI w).fault = s.fault := rfl
@[simp] theorem State.setI_draws (s : State) (w : Word) : (s.setI w).draws = s.draws := rfl

/-! ### `setDt` -/

@[simp] theorem State.setDt_config (s : State) (b : Byte) : (s.setDt b).config = s.config := rfl
@[simp] theorem State.setDt_v (s : State) (b : Byte) : (s.setDt b).v = s.v := rfl
@[simp] theorem State.setDt_i (s : State) (b : Byte) : (s.setDt b).i = s.i := rfl
@[simp] theorem State.setDt_pc (s : State) (b : Byte) : (s.setDt b).pc = s.pc := rfl
@[simp] theorem State.setDt_sp (s : State) (b : Byte) : (s.setDt b).sp = s.sp := rfl
@[simp] theorem State.setDt_stack (s : State) (b : Byte) : (s.setDt b).stack = s.stack := rfl
@[simp] theorem State.setDt_dt (s : State) (b : Byte) : (s.setDt b).dt = b := rfl
@[simp] theorem State.setDt_st (s : State) (b : Byte) : (s.setDt b).st = s.st := rfl
@[simp] theorem State.setDt_memory (s : State) (b : Byte) : (s.setDt b).memory = s.memory := rfl
@[simp] theorem State.setDt_fb (s : State) (b : Byte) : (s.setDt b).fb = s.fb := rfl
@[simp] theorem State.setDt_keys (s : State) (b : Byte) : (s.setDt b).keys = s.keys := rfl
@[simp] theorem State.setDt_fault (s : State) (b : Byte) : (s.setDt b).fault = s.fault := rfl
@[simp] theorem State.setDt_draws (s : State) (b : Byte) : (s.setDt b).draws = s.draws := rfl

/-! ### `setSt` -/

@[simp] theorem State.setSt_config (s : State) (b : Byte) : (s.setSt b).config = s.config := rfl
@[simp] theorem State.setSt_v (s : State) (b : Byte) : (s.setSt b).v = s.v := rfl
@[simp] theorem State.setSt_i (s : State) (b : Byte) : (s.setSt b).i = s.i := rfl
@[simp] theorem State.setSt_pc (s : State) (b : Byte) : (s.setSt b).pc = s.pc := rfl
@[simp] theorem State.setSt_sp (s : State) (b : Byte) : (s.setSt b).sp = s.sp := rfl
@[simp] theorem State.setSt_stack (s : State) (b : Byte) : (s.setSt b).stack = s.stack := rfl
@[simp] theorem State.setSt_dt (s : State) (b : Byte) : (s.setSt b).dt = s.dt := rfl
@[simp] theorem State.setSt_st (s : State) (b : Byte) : (s.setSt b).st = b := rfl
@[simp] theorem State.setSt_memory (s : State) (b : Byte) : (s.setSt b).memory = s.memory := rfl
@[simp] theorem State.setSt_fb (s : State) (b : Byte) : (s.setSt b).fb = s.fb := rfl
@[simp] theorem State.setSt_keys (s : State) (b : Byte) : (s.setSt b).keys = s.keys := rfl
@[simp] theorem State.setSt_fault (s : State) (b : Byte) : (s.setSt b).fault = s.fault := rfl
@[simp] theorem State.setSt_draws (s : State) (b : Byte) : (s.setSt b).draws = s.draws := rfl

/-! ### `setPc` -/

@[simp] theorem State.setPc_config (s : State) (w : Word) : (s.setPc w).config = s.config := rfl
@[simp] theorem State.setPc_v (s : State) (w : Word) : (s.setPc w).v = s.v := rfl
@[simp] theorem State.setPc_i (s : State) (w : Word) : (s.setPc w).i = s.i := rfl
@[simp] theorem State.setPc_pc (s : State) (w : Word) : (s.setPc w).pc = w := rfl
@[simp] theorem State.setPc_sp (s : State) (w : Word) : (s.setPc w).sp = s.sp := rfl
@[simp] theorem State.setPc_stack (s : State) (w : Word) : (s.setPc w).stack = s.stack := rfl
@[simp] theorem State.setPc_dt (s : State) (w : Word) : (s.setPc w).dt = s.dt := rfl
@[simp] theorem State.setPc_st (s : State) (w : Word) : (s.setPc w).st = s.st := rfl
@[simp] theorem State.setPc_memory (s : State) (w : Word) : (s.setPc w).memory = s.memory := rfl
@[simp] theorem State.setPc_fb (s : State) (w : Word) : (s.setPc w).fb = s.fb := rfl
@[simp] theorem State.setPc_keys (s : State) (w : Word) : (s.setPc w).keys = s.keys := rfl
@[simp] theorem State.setPc_fault (s : State) (w : Word) : (s.setPc w).fault = s.fault := rfl
@[simp] theorem State.setPc_draws (s : State) (w : Word) : (s.setPc w).draws = s.draws := rfl

/-! ### `setFb` -/

@[simp] theorem State.setFb_config (s : State) (cells : List Bool) : (s.setFb cells).config = s.config := rfl
@[simp] theorem State.setFb_v (s : State) (cells : List Bool) : (s.setFb cells).v = s.v := rfl
@[simp] theorem State.setFb_i (s : State) (cells : List Bool) : (s.setFb cells).i = s.i := rfl
@[simp] theorem State.setFb_pc (s : State) (cells : List Bool) : (s.setFb cells).pc = s.pc := rfl
@[simp] theorem State.setFb_sp (s : State) (cells : List Bool) : (s.setFb cells).sp = s.sp := rfl
@[simp] theorem State.setFb_stack (s : State) (cells : List Bool) : (s.setFb cells).stack = s.stack := rfl
@[simp] theorem State.setFb_dt (s : State) (cells : List Bool) : (s.setFb cells).dt = s.dt := rfl
@[simp] theorem State.setFb_st (s : State) (cells : List Bool) : (s.setFb cells).st = s.st := rfl
@[simp] theorem State.setFb_memory (s : State) (cells : List Bool) : (s.setFb cells).memory = s.memory := rfl
@[simp] theorem State.setFb_fb (s : State) (cells : List Bool) : (s.setFb cells).fb = cells := rfl
@[simp] theorem State.setFb_keys (s : State) (cells : List Bool) : (s.setFb cells).keys = s.keys := rfl
@[simp] theorem State.setFb_fault (s : State) (cells : List Bool) : (s.setFb cells).fault = s.fault := rfl
@[simp] theorem State.setFb_draws (s : State) (cells : List Bool) : (s.setFb cells).draws = s.draws := rfl

/-! ### `setKeyBit` -/

@[simp] theorem State.setKeyBit_config (s : State) (k : Reg) (p : Bool) : (s.setKeyBit k p).config = s.config := rfl
@[simp] theorem State.setKeyBit_v (s : State) (k : Reg) (p : Bool) : (s.setKeyBit k p).v = s.v := rfl
@[simp] theorem State.setKeyBit_i (s : State) (k : Reg) (p : Bool) : (s.setKeyBit k p).i = s.i := rfl
@[simp] theorem State.setKeyBit_pc (s : State) (k : Reg) (p : Bool) : (s.setKeyBit k p).pc = s.pc := rfl
@[simp] theorem State.setKeyBit_sp (s : State) (k : Reg) (p : Bool) : (s.setKeyBit k p).sp = s.sp := rfl
@[simp] theorem State.setKeyBit_stack (s : State) (k : Reg) (p : Bool) : (s.setKeyBit k p).stack = s.stack := rfl
@[simp] theorem State.setKeyBit_dt (s : State) (k : Reg) (p : Bool) : (s.setKeyBit k p).dt = s.dt := rfl
@[simp] theorem State.setKeyBit_st (s : State) (k : Reg) (p : Bool) : (s.setKeyBit k p).st = s.st := rfl
@[simp] theorem State.setKeyBit_memory (s : State) (k : Reg) (p : Bool) : (s.setKeyBit k p).memory = s.memory := rfl
@[simp] theorem State.setKeyBit_fb (s : State) (k : Reg) (p : Bool) : (s.setKeyBit k p).fb = s.fb := rfl
@[simp] theorem State.setKeyBit_keys (s : State) (k : Reg) (p : Bool) : (s.setKeyBit k p).keys = s.keys.set k.toNat p := rfl
@[simp] theorem State.setKeyBit_fault (s : State) (k : Reg) (p : Bool) : (s.setKeyBit k p).fault = s.fault := rfl
@[simp] theorem State.setKeyBit_draws (s : State) (k : Reg) (p : Bool) : (s.setKeyBit k p).draws = s.draws := rfl

/-! ### `useDraw` -/

@[simp] theorem State.useDraw_config (s : State) : (s.useDraw).config = s.config := rfl
@[simp] theorem State.useDraw_v (s : State) : (s.useDraw).v = s.v := rfl
@[simp] theorem State.useDraw_i (s : State) : (s.useDraw).i = s.i := rfl
@[simp] theorem State.useDraw_pc (s : State) : (s.useDraw).pc = s.pc := rfl
@[simp] theorem State.useDraw_sp (s : State) : (s.useDraw).sp = s.sp := rfl
@[simp] theorem State.useDraw_stack (s : State) : (s.useDraw).stack = s.stack := rfl
@[simp] theorem State.useDraw_dt (s : State) : (s.useDraw).dt = s.dt := rfl
@[simp] theorem State.useDraw_st (s : State) : (s.useDraw).st = s.st := rfl
@[simp] theorem State.useDraw_memory (s : State) : (s.useDraw).memory = s.memory := rfl
@[simp] theorem State.useDraw_fb (s : State) : (s.useDraw).fb = s.fb := rfl
@[simp] theorem State.useDraw_keys (s : State) : (s.useDraw).keys = s.keys := rfl
@[simp] theorem State.useDraw_fault (s : State) : (s.useDraw).fault = s.fault := rfl
@[simp] theorem State.useDraw_draws (s : State) : (s.useDraw).draws = s.draws + 1 := rfl

/-! ### `advance` -/

@[simp] theorem State.advance_config (s : State) : (s.advance).config = s.config := rfl
@[simp] theorem State.advance_v (s : State) : (s.advance).v = s.v := rfl
@[simp] theorem State.advance_i (s : State) : (s.advance).i = s.i := rfl
@[simp] theorem State.advance_pc (s : State) : (s.advance).pc = s.pc + 2#16 := rfl
@[simp] theorem State.advance_sp (s : State) : (s.advance).sp = s.sp := rfl
@[simp] theorem State.advance_stack (s : State) : (s.advance).stack = s.stack := rfl
@[simp] theorem State.advance_dt (s : State) : (s.advance).dt = s.dt := rfl
@[simp] theorem State.advance_st (s : State) : (s.advance).st = s.st := rfl
@[simp] theorem State.advance_memory (s : State) : (s.advance).memory = s.memory := rfl
@[simp] theorem State.advance_fb (s : State) : (s.advance).fb = s.fb := rfl
@[simp] theorem State.advance_keys (s : State) : (s.advance).keys = s.keys := rfl
@[simp] theorem State.advance_fault (s : State) : (s.advance).fault = s.fault := rfl
@[simp] theorem State.advance_draws (s : State) : (s.advance).draws = s.draws := rfl

/-! ### `storeByte` -/

@[simp] theorem State.storeByte_config (s : State) (a : Nat) (b : Byte) : (s.storeByte a b).config = s.config := rfl
@[simp] theorem State.storeByte_v (s : State) (a : Nat) (b : Byte) : (s.storeByte a b).v = s.v := rfl
@[simp] theorem State.storeByte_i (s : State) (a : Nat) (b : Byte) : (s.storeByte a b).i = s.i := rfl
@[simp] theorem State.storeByte_pc (s : State) (a : Nat) (b : Byte) : (s.storeByte a b).pc = s.pc := rfl
@[simp] theorem State.storeByte_sp (s : State) (a : Nat) (b : Byte) : (s.storeByte a b).sp = s.sp := rfl
@[simp] theorem State.storeByte_stack (s : State) (a : Nat) (b : Byte) : (s.storeByte a b).stack = s.stack := rfl
@[simp] theorem State.storeByte_dt (s : State) (a : Nat) (b : Byte) : (s.storeByte a b).dt = s.dt := rfl
@[simp] theorem State.storeByte_st (s : State) (a : Nat) (b : Byte) : (s.storeByte a b).st = s.st := rfl
@[simp] theorem State.storeByte_memory (s : State) (a : Nat) (b : Byte) : (s.storeByte a b).memory = Memory.write s.config.font s.memory a b := rfl
@[simp] theorem State.storeByte_fb (s : State) (a : Nat) (b : Byte) : (s.storeByte a b).fb = s.fb := rfl
@[simp] theorem State.storeByte_keys (s : State) (a : Nat) (b : Byte) : (s.storeByte a b).keys = s.keys := rfl
@[simp] theorem State.storeByte_fault (s : State) (a : Nat) (b : Byte) : (s.storeByte a b).fault = s.fault := rfl
@[simp] theorem State.storeByte_draws (s : State) (a : Nat) (b : Byte) : (s.storeByte a b).draws = s.draws := rfl

/-! ### `push` -/

@[simp] theorem State.push_config (s : State) (h : s.sp.toNat < 15) : (s.push h).config = s.config := rfl
@[simp] theorem State.push_v (s : State) (h : s.sp.toNat < 15) : (s.push h).v = s.v := rfl
@[simp] theorem State.push_i (s : State) (h : s.sp.toNat < 15) : (s.push h).i = s.i := rfl
@[simp] theorem State.push_pc (s : State) (h : s.sp.toNat < 15) : (s.push h).pc = s.pc := rfl
@[simp] theorem State.push_sp (s : State) (h : s.sp.toNat < 15) : (s.push h).sp = s.sp + 1#8 := rfl
@[simp] theorem State.push_stack (s : State) (h : s.sp.toNat < 15) : (s.push h).stack = s.stack.set (s.sp.toNat + 1) s.pc := rfl
@[simp] theorem State.push_dt (s : State) (h : s.sp.toNat < 15) : (s.push h).dt = s.dt := rfl
@[simp] theorem State.push_st (s : State) (h : s.sp.toNat < 15) : (s.push h).st = s.st := rfl
@[simp] theorem State.push_memory (s : State) (h : s.sp.toNat < 15) : (s.push h).memory = s.memory := rfl
@[simp] theorem State.push_fb (s : State) (h : s.sp.toNat < 15) : (s.push h).fb = s.fb := rfl
@[simp] theorem State.push_keys (s : State) (h : s.sp.toNat < 15) : (s.push h).keys = s.keys := rfl
@[simp] theorem State.push_fault (s : State) (h : s.sp.toNat < 15) : (s.push h).fault = s.fault := rfl
@[simp] theorem State.push_draws (s : State) (h : s.sp.toNat < 15) : (s.push h).draws = s.draws := rfl

/-! ### `pop` -/

@[simp] theorem State.pop_config (s : State) (h : s.sp.toNat < 16) : (s.pop h).config = s.config := rfl
@[simp] theorem State.pop_v (s : State) (h : s.sp.toNat < 16) : (s.pop h).v = s.v := rfl
@[simp] theorem State.pop_i (s : State) (h : s.sp.toNat < 16) : (s.pop h).i = s.i := rfl
@[simp] theorem State.pop_pc (s : State) (h : s.sp.toNat < 16) : (s.pop h).pc = s.stack[s.sp.toNat] := rfl
@[simp] theorem State.pop_sp (s : State) (h : s.sp.toNat < 16) : (s.pop h).sp = s.sp - 1#8 := rfl
@[simp] theorem State.pop_stack (s : State) (h : s.sp.toNat < 16) : (s.pop h).stack = s.stack := rfl
@[simp] theorem State.pop_dt (s : State) (h : s.sp.toNat < 16) : (s.pop h).dt = s.dt := rfl
@[simp] theorem State.pop_st (s : State) (h : s.sp.toNat < 16) : (s.pop h).st = s.st := rfl
@[simp] theorem State.pop_memory (s : State) (h : s.sp.toNat < 16) : (s.pop h).memory = s.memory := rfl
@[simp] theorem State.pop_fb (s : State) (h : s.sp.toNat < 16) : (s.pop h).fb = s.fb := rfl
@[simp] theorem State.pop_keys (s : State) (h : s.sp.toNat < 16) : (s.pop h).keys = s.keys := rfl
@[simp] theorem State.pop_fault (s : State) (h : s.sp.toNat < 16) : (s.pop h).fault = s.fault := rfl
@[simp] theorem State.pop_draws (s : State) (h : s.sp.toNat < 16) : (s.pop h).draws = s.draws := rfl

/-! ### `enterFault` -/

@[simp] theorem State.enterFault_config (s : State) (p : Word) (c : FaultCause) (w : Word) : (s.enterFault p c w).config = s.config := rfl
@[simp] theorem State.enterFault_v (s : State) (p : Word) (c : FaultCause) (w : Word) : (s.enterFault p c w).v = s.v := rfl
@[simp] theorem State.enterFault_i (s : State) (p : Word) (c : FaultCause) (w : Word) : (s.enterFault p c w).i = s.i := rfl
@[simp] theorem State.enterFault_pc (s : State) (p : Word) (c : FaultCause) (w : Word) : (s.enterFault p c w).pc = p := rfl
@[simp] theorem State.enterFault_sp (s : State) (p : Word) (c : FaultCause) (w : Word) : (s.enterFault p c w).sp = s.sp := rfl
@[simp] theorem State.enterFault_stack (s : State) (p : Word) (c : FaultCause) (w : Word) : (s.enterFault p c w).stack = s.stack := rfl
@[simp] theorem State.enterFault_dt (s : State) (p : Word) (c : FaultCause) (w : Word) : (s.enterFault p c w).dt = s.dt := rfl
@[simp] theorem State.enterFault_st (s : State) (p : Word) (c : FaultCause) (w : Word) : (s.enterFault p c w).st = s.st := rfl
@[simp] theorem State.enterFault_memory (s : State) (p : Word) (c : FaultCause) (w : Word) : (s.enterFault p c w).memory = s.memory := rfl
@[simp] theorem State.enterFault_fb (s : State) (p : Word) (c : FaultCause) (w : Word) : (s.enterFault p c w).fb = s.fb := rfl
@[simp] theorem State.enterFault_keys (s : State) (p : Word) (c : FaultCause) (w : Word) : (s.enterFault p c w).keys = s.keys := rfl
@[simp] theorem State.enterFault_fault (s : State) (p : Word) (c : FaultCause) (w : Word) : (s.enterFault p c w).fault = some ⟨c, p, w⟩ := rfl
@[simp] theorem State.enterFault_draws (s : State) (p : Word) (c : FaultCause) (w : Word) : (s.enterFault p c w).draws = s.draws := rfl

/-! ### `readBack` -/

@[simp] theorem readBack_memory (s : State) : (readBack s).memory = s.memoryImage := by simp only [readBack]
@[simp] theorem readBack_cells (s : State) : (readBack s).cells = s.fb := by simp only [readBack]
@[simp] theorem readBack_width (s : State) : (readBack s).width = s.config.width := by simp only [readBack]
@[simp] theorem readBack_height (s : State) : (readBack s).height = s.config.height := by simp only [readBack]
@[simp] theorem readBack_keys (s : State) : (readBack s).keys = s.keys := by simp only [readBack]
@[simp] theorem readBack_fault (s : State) : (readBack s).fault = s.fault := by simp only [readBack]
@[simp] theorem readBack_v (s : State) : (readBack s).v = s.v := by simp only [readBack]
@[simp] theorem readBack_i (s : State) : (readBack s).i = s.i := by simp only [readBack]
@[simp] theorem readBack_pc (s : State) : (readBack s).pc = s.pc := by simp only [readBack]
@[simp] theorem readBack_sp (s : State) : (readBack s).sp = s.sp := by simp only [readBack]
@[simp] theorem readBack_stack (s : State) : (readBack s).stack = s.stack := by simp only [readBack]
@[simp] theorem readBack_dt (s : State) : (readBack s).dt = s.dt := by simp only [readBack]
@[simp] theorem readBack_st (s : State) : (readBack s).st = s.st := by simp only [readBack]

end Sys2Proof.Machine
end

