-- ==== Sys2Proof/Laws/Memory.lean ====
section
/-! SUPPORT. What memory operations do: a read after a write, the canonical form (every operation keeps it), equal reads
make equal memories, and the byte-list operations over `State`. -/

namespace Sys2Proof.Machine

variable {font : Vector Byte 80}

/-! ### The list -/

theorem Memory.wf_nil : Memory.wf font [] := by simp [Memory.wf]

theorem Memory.wf_cons {c : Host.Cell} {m : Memory} :
    Memory.wf font (c :: m) ↔
      (∀ d ∈ m, c.1 < d.1) ∧ c.1 < Config.memSize ∧ c.2 ≠ Memory.background font c.1 ∧ Memory.wf font m := by
  simp only [Memory.wf, List.pairwise_cons, List.mem_cons, forall_eq_or_imp]
  tauto

theorem Memory.wf_tail {c : Host.Cell} {m : Memory} (h : Memory.wf font (c :: m)) : Memory.wf font m :=
  (Memory.wf_cons.mp h).2.2.2

@[simp] theorem Memory.read_nil (a : Nat) : Memory.read font [] a = Memory.background font a := rfl

theorem Memory.read_cons (c : Host.Cell) (m : Memory) (a : Nat) :
    Memory.read font (c :: m) a = if c.1 = a then c.2 else Memory.read font m a := rfl

/-- An address below every listed one reads as the background. -/
theorem Memory.read_of_lt {m : Memory} {a : Nat} (h : ∀ d ∈ m, a < d.1) :
    Memory.read font m a = Memory.background font a := by
  induction m with
  | nil => rfl
  | cons c m ih =>
    have hc := h c (by simp)
    rw [Memory.read_cons, if_neg (by omega)]
    exact ih fun d hd => h d (by simp [hd])

theorem Memory.mem_put {m : Memory} {a : Nat} {b : Byte} {d : Host.Cell} (h : d ∈ Memory.put font m a b) :
    d ∈ m ∨ (d = (a, b) ∧ b ≠ Memory.background font a) := by
  induction m with
  | nil => simp only [Memory.put] at h; split at h <;> simp_all
  | cons c m ih =>
    simp only [Memory.put] at h
    split at h
    · split at h <;> simp_all [or_comm]
    · split at h
      · split at h
        · exact .inl (by simp [h])
        · rcases List.mem_cons.mp h with h | h
          · exact .inr ⟨h, ‹_›⟩
          · exact .inl (by simp [h])
      · rcases List.mem_cons.mp h with h | h
        · exact .inl (by simp [h])
        · rcases ih h with h | h
          · exact .inl (by simp [h])
          · exact .inr h

/-- A write keeps the canonical form. -/
theorem Memory.wf_put {m : Memory} {a : Nat} {b : Byte} (h : Memory.wf font m) (ha : a < Config.memSize) :
    Memory.wf font (Memory.put font m a b) := by
  induction m with
  | nil => simp only [Memory.put]; split <;> simp_all [Memory.wf]
  | cons c m ih =>
    obtain ⟨h1, h2, h3, h4⟩ := Memory.wf_cons.mp h
    simp only [Memory.put]
    split
    · rename_i hlt
      split
      · exact h
      · refine Memory.wf_cons.mpr ⟨?_, ha, ‹_›, h⟩
        intro d hd
        rcases List.mem_cons.mp hd with rfl | hd
        · exact hlt
        · exact lt_trans hlt (h1 d hd)
    · split
      · rename_i heq
        split
        · exact h4
        · exact Memory.wf_cons.mpr ⟨fun d hd => heq ▸ h1 d hd, ha, ‹_›, h4⟩
      · refine Memory.wf_cons.mpr ⟨?_, h2, h3, ih h4⟩
        intro d hd
        rcases Memory.mem_put hd with hd | ⟨rfl, -⟩
        · exact h1 d hd
        · show c.1 < a
          omega

theorem Memory.wf_write {m : Memory} (a : Nat) (b : Byte) (h : Memory.wf font m) :
    Memory.wf font (Memory.write font m a b) := by
  unfold Memory.write
  split
  · exact Memory.wf_put h ‹_›
  · exact h

theorem Memory.read_put {m : Memory} (a : Nat) (b : Byte) (h : Memory.wf font m) (x : Nat) :
    Memory.read font (Memory.put font m a b) x = if x = a then b else Memory.read font m x := by
  induction m with
  | nil =>
    by_cases hx : x = a
    · subst hx
      simp only [Memory.put]
      split <;> simp_all [Memory.read_cons]
    · have hx' : ¬a = x := fun e => hx e.symm
      simp only [Memory.put]
      split <;> simp [Memory.read_cons, hx']
  | cons c m ih =>
    obtain ⟨h1, h2, h3, h4⟩ := Memory.wf_cons.mp h
    have ih := ih h4
    by_cases hlt : a < c.1
    · have hbg : Memory.read font (c :: m) a = Memory.background font a :=
        Memory.read_of_lt fun d hd => by
          rcases List.mem_cons.mp hd with rfl | hd
          · exact hlt
          · exact lt_trans hlt (h1 d hd)
      by_cases hx : x = a
      · subst hx
        by_cases hb : b = Memory.background font x
        · simp [Memory.put, hlt, hb, hbg]
        · simp [Memory.put, hlt, hb, Memory.read_cons]
      · have hx' : ¬a = x := fun e => hx e.symm
        by_cases hb : b = Memory.background font a
        · simp [Memory.put, hlt, hb, hx]
        · simp [Memory.put, hlt, hb, hx, Memory.read_cons, hx']
    · by_cases heq : a = c.1
      · have hbg : Memory.read font m a = Memory.background font a :=
          Memory.read_of_lt fun d hd => heq ▸ h1 d hd
        by_cases hx : x = a
        · subst hx
          by_cases hb : b = Memory.background font x
          · simp [Memory.put, heq, hb]
            simpa [heq] using hbg
          · simp [Memory.put, hb, Memory.read_cons, ← heq]
        · have hx' : ¬a = x := fun e => hx e.symm
          have hc : ¬c.1 = x := heq ▸ hx'
          by_cases hb : b = Memory.background font a
          · simp only [Memory.put, if_neg hlt, if_pos heq, if_pos hb, if_neg hx, Memory.read_cons, if_neg hc]
          · simp only [Memory.put, if_neg hlt, if_pos heq, if_neg hb, if_neg hx, Memory.read_cons, if_neg hc, if_neg hx']
      · simp only [Memory.put, if_neg hlt, if_neg heq, Memory.read_cons, ih]
        by_cases hx : x = a
        · subst hx
          simp [show ¬c.1 = x from fun e => heq e.symm]
        · simp [hx]

/-- A read after a write: the written byte where it was written (when the address exists), everything else as before. -/
theorem Memory.read_write {m : Memory} (a : Nat) (b : Byte) (h : Memory.wf font m) (x : Nat) :
    Memory.read font (Memory.write font m a b) x =
      if x = a ∧ a < Config.memSize then b else Memory.read font m x := by
  unfold Memory.write
  split
  · simp [Memory.read_put a b h x, *]
  · simp [*]

/-- Memories in canonical form that read the same everywhere are the same list. -/
theorem Memory.ext_of_read {m n : Memory} (hm : Memory.wf font m) (hn : Memory.wf font n)
    (h : ∀ a, Memory.read font m a = Memory.read font n a) : m = n := by
  induction m generalizing n with
  | nil =>
    cases n with
    | nil => rfl
    | cons d n =>
      have hd := (Memory.wf_cons.mp hn).2.2.1
      have := h d.1
      simp [Memory.read_cons] at this
      exact absurd this.symm hd
  | cons c m ih =>
    cases n with
    | nil =>
      have hc := (Memory.wf_cons.mp hm).2.2.1
      have := h c.1
      simp [Memory.read_cons] at this
      exact absurd this hc
    | cons d n =>
      obtain ⟨c1, c2, c3, c4⟩ := Memory.wf_cons.mp hm
      obtain ⟨d1, d2, d3, d4⟩ := Memory.wf_cons.mp hn
      have key : c.1 = d.1 := by
        by_contra hne
        rcases lt_or_gt_of_ne hne with hlt | hlt
        · have := h c.1
          rw [Memory.read_of_lt (m := d :: n) (a := c.1)] at this
          · simp [Memory.read_cons] at this
            exact c3 this
          · intro e he
            rcases List.mem_cons.mp he with rfl | he
            · exact hlt
            · exact lt_trans hlt (d1 e he)
        · have := h d.1
          rw [Memory.read_of_lt (m := c :: m) (a := d.1)] at this
          · simp [Memory.read_cons] at this
            exact d3 this.symm
          · intro e he
            rcases List.mem_cons.mp he with rfl | he
            · exact hlt
            · exact lt_trans hlt (c1 e he)
      have val : c.2 = d.2 := by
        have := h c.1
        simpa [Memory.read_cons, key] using this
      have tail : m = n := by
        refine ih c4 d4 fun a => ?_
        by_cases ha : c.1 = a
        · subst ha
          rw [Memory.read_of_lt c1, Memory.read_of_lt (m := n) (a := c.1) (fun e he => key ▸ d1 e he)]
        · have := h a
          rwa [Memory.read_cons, Memory.read_cons, if_neg ha, if_neg (key ▸ ha)] at this
      rw [tail, Prod.ext key val]

/-! ### The state's memory -/

/-- A byte reads from the configuration's font and the memory only. -/
theorem State.byteAt_congr {s t : State} (hc : t.config = s.config) (hm : t.memory = s.memory) (a : Nat) :
    t.byteAt a = s.byteAt a := by
  simp [State.byteAt, hc, hm]

theorem State.byteAt_storeByte {s : State} (h : Memory.wf s.config.font s.memory) (a : Nat) (b : Byte) (x : Nat) :
    (s.storeByte a b).byteAt x = if x = a ∧ a < Config.memSize then b else s.byteAt x :=
  Memory.read_write a b h x

theorem State.wf_storeByte {s : State} (h : Memory.wf s.config.font s.memory) (a : Nat) (b : Byte) :
    Memory.wf (s.storeByte a b).config.font (s.storeByte a b).memory :=
  Memory.wf_write a b h

/-- Byte stores change memory only. -/
theorem State.storeBytes_eq (bs : List Byte) (s : State) (a : Nat) :
    s.storeBytes a bs = { s with memory := (s.storeBytes a bs).memory } := by
  induction bs generalizing s a with
  | nil => rfl
  | cons b bs ih => rw [State.storeBytes, ih]; rfl

@[simp] theorem State.storeBytes_config (s : State) (a : Nat) (bs : List Byte) :
    (s.storeBytes a bs).config = s.config := by rw [State.storeBytes_eq]

theorem State.wf_storeBytes (bs : List Byte) {s : State} (h : Memory.wf s.config.font s.memory) (a : Nat) :
    Memory.wf s.config.font (s.storeBytes a bs).memory := by
  induction bs generalizing s a with
  | nil => exact h
  | cons b bs ih => exact ih (s := s.storeByte a b) (State.wf_storeByte h a b) (a + 1)

/-- What a list of byte stores leaves at an address: the byte of the list that falls on it, else what was there. -/
theorem State.byteAt_storeBytes (bs : List Byte) {s : State} (h : Memory.wf s.config.font s.memory) (a : Nat)
    (ha : a + bs.length ≤ Config.memSize) (x : Nat) :
    (s.storeBytes a bs).byteAt x = if a ≤ x ∧ x < a + bs.length then bs.getD (x - a) 0#8 else s.byteAt x := by
  induction bs generalizing s a with
  | nil => simp [State.storeBytes]
  | cons b bs ih =>
    have hl : (b :: bs).length = bs.length + 1 := rfl
    rw [State.storeBytes, ih (State.wf_storeByte h a b) (a + 1) (by rw [hl] at ha; omega), State.byteAt_storeByte h]
    rw [hl] at ha ⊢
    by_cases h1 : a + 1 ≤ x ∧ x < a + 1 + bs.length
    · rw [if_pos h1, if_pos ⟨by omega, by omega⟩]
      obtain ⟨k, hk⟩ : ∃ k, x - a = k + 1 := ⟨x - a - 1, by omega⟩
      rw [hk, show x - (a + 1) = k by omega]
      rfl
    · rw [if_neg h1]
      by_cases h2 : x = a
      · subst h2
        rw [if_pos ⟨rfl, by omega⟩, if_pos ⟨le_refl _, by omega⟩]
        simp
      · rw [if_neg (fun e => h2 e.1), if_neg (by omega)]

@[simp] theorem State.loadBytes_length (s : State) (a n : Nat) : (s.loadBytes a n).length = n := by
  simp [State.loadBytes]

theorem State.loadBytes_getElem? (s : State) (a n k : Nat) :
    (s.loadBytes a n)[k]? = if k < n then some (s.byteAt (a + k)) else none := by
  by_cases h : k < n <;> simp [State.loadBytes, h]

@[simp] theorem State.memoryImage_length (s : State) : s.memoryImage.length = 4096 :=
  State.loadBytes_length s 0 Config.memSize

theorem State.memoryImage_getElem? (s : State) {a : Nat} (ha : a < 4096) : s.memoryImage[a]? = some (s.byteAt a) := by
  rw [State.memoryImage, State.loadBytes_getElem?, if_pos ha, Nat.zero_add]

end Sys2Proof.Machine
end

