-- ==== Sys2Proof/Laws/Commands.lean ====
section
/-! SUPPORT. What each host command can do, said once (`command_cases`), and when the invariant carries over from one state
to another (`State.Inv.of_same`). -/

namespace Sys2Proof.Machine

@[simp] theorem tickByte_toNat (b : Byte) : (tickByte b).toNat = b.toNat - 1 := by
  unfold tickByte
  split
  · next h => subst h; rfl
  · next h =>
    have := b.isLt
    have : b.toNat ≠ 0 := fun e => h (BitVec.eq_of_toNat_eq e)
    simp
    omega

theorem loadImage_eq (bytes : List Byte) (s : State) : loadImage bytes s = { s with memory := (loadImage bytes s).memory } := by
  unfold loadImage
  rw [State.storeBytes_eq _ (s.storeBytes _ _), State.storeBytes_eq bytes s]

theorem wf_loadImage (bytes : List Byte) {s : State} (h : Memory.wf s.config.font s.memory) :
    Memory.wf s.config.font (loadImage bytes s).memory := by
  have := State.wf_storeBytes s.fontBytes (s := s.storeBytes Config.progBase bytes)
    (by rw [State.storeBytes_config]; exact State.wf_storeBytes bytes h _) 0
  rwa [State.storeBytes_config] at this

/-- The commands other than `reset` and `step` always go to a next state, and write memory (in canonical form), the timers and
the keys only. -/
theorem hostCommand_eq (c : Command) (s : State) (hr : c ≠ .reset) (hs : ∀ rb, c ≠ .step rb) :
    ∃ t, command c s = .next t ∧ t = { s with memory := t.memory, dt := t.dt, st := t.st, keys := t.keys } ∧
      (Memory.wf s.config.font s.memory → Memory.wf s.config.font t.memory) := by
  cases c with
  | reset => exact absurd rfl hr
  | step rb => exact absurd rfl (hs rb)
  | readBack => exact ⟨s, rfl, rfl, id⟩
  | tickTimers =>
    refine ⟨_, rfl, ?_⟩
    unfold tickTimersCommand
    split <;> exact ⟨rfl, id⟩
  | loadProgram bytes =>
    refine ⟨_, rfl, ?_⟩
    unfold loadProgramCommand
    split
    · exact ⟨rfl, id⟩
    · split
      · exact ⟨by rw [loadImage_eq], wf_loadImage bytes⟩
      · exact ⟨rfl, id⟩
  | setKey k =>
    refine ⟨_, rfl, ?_⟩
    unfold keyCommand
    split
    · exact ⟨rfl, id⟩
    · split <;> exact ⟨rfl, id⟩
  | unsetKey k =>
    refine ⟨_, rfl, ?_⟩
    unfold keyCommand
    split
    · exact ⟨rfl, id⟩
    · split <;> exact ⟨rfl, id⟩

/-- Everything a command can do: reset, a step with the command's byte, or a write to memory, timers and keys only. -/
theorem command_cases (c : Command) (s : State) :
    (c = .reset ∧ command c s = .next (resetCommand s)) ∨
    (∃ rb, c = .step rb ∧ command c s = stepWith rb s) ∨
    (∃ t, command c s = .next t ∧ t = { s with memory := t.memory, dt := t.dt, st := t.st, keys := t.keys } ∧
      (Memory.wf s.config.font s.memory → Memory.wf s.config.font t.memory)) := by
  by_cases hr : c = .reset
  · exact .inl ⟨hr, by rw [hr]; rfl⟩
  · by_cases hs : ∃ rb, c = .step rb
    · obtain ⟨rb, rfl⟩ := hs
      exact .inr (.inl ⟨rb, rfl, rfl⟩)
    · exact .inr (.inr (hostCommand_eq c s hr fun rb e => hs ⟨rb, e⟩))

/-- A state that shares configuration, depth and stack with one that meets the invariant meets it too, if its display has the
same length, its memory is canonical, its `PC` is in range and its fault record names its `PC`. -/
theorem State.Inv.of_same {s t : State} (h : s.Inv) (hc : t.config = s.config) (hf : t.fb.length = s.fb.length)
    (hm : Memory.wf s.config.font t.memory) (hsp : t.sp = s.sp) (hst : t.stack = s.stack) (hp : t.pc.toNat ≤ 0x10FE)
    (hr : ∀ r, t.fault = some r → r.pc = t.pc) : t.Inv :=
  { config_wf := hc ▸ h.config_wf
    fb_length := by rw [hf, hc]; exact h.fb_length
    memory_wf := by rw [hc]; exact hm
    sp_le := by rw [hsp]; exact h.sp_le
    pc_le := hp
    stack_range := by rw [hsp, hst]; exact h.stack_range
    fault_pc := hr }

end Sys2Proof.Machine
end

