-- ==== Sys2Proof/Laws/Decode.lean ====
section
/-! SUPPORT. The fields of an encoded word: each field read back from the place it was put, one lemma per format. -/

namespace Sys2Proof

/-! ### A word as a number -/

theorem placeX_toNat (x : Reg) : (placeX x).toNat = 256 * x.toNat := by
  have := x.isLt
  simp only [placeX, BitVec.toNat_shiftLeft, BitVec.toNat_setWidth, Nat.shiftLeft_eq]
  omega

theorem placeY_toNat (y : Reg) : (placeY y).toNat = 16 * y.toNat := by
  have := y.isLt
  simp only [placeY, BitVec.toNat_shiftLeft, BitVec.toNat_setWidth, Nat.shiftLeft_eq]
  omega

theorem placeN_toNat (n : Nibble) : (placeN n).toNat = n.toNat := by
  have := n.isLt
  simp only [placeN, BitVec.toNat_setWidth]
  omega

theorem placeKK_toNat (kk : Byte) : (placeKK kk).toNat = kk.toNat := by
  have := kk.isLt
  simp only [placeKK, BitVec.toNat_setWidth]
  omega

theorem placeNNN_toNat (nnn : Imm12) : (placeNNN nnn).toNat = nnn.toNat := by
  have := nnn.isLt
  simp only [placeNNN, BitVec.toNat_setWidth]
  omega

/-- OR of a multiple of `2 ^ k` with a number below `2 ^ k` is their sum. -/
theorem or_eq_add (k a b : Nat) (hb : b < 2 ^ k) : 2 ^ k * a ||| b = 2 ^ k * a + b :=
  (Nat.two_pow_add_eq_or_of_lt hb a).symm

theorem encode_toNat_nnn (p : Nat) (hp : p < 16) (nnn : Imm12) :
    (BitVec.ofNat 16 (4096 * p) ||| placeNNN nnn).toNat = 4096 * p + nnn.toNat := by
  have := nnn.isLt
  rw [BitVec.toNat_or, placeNNN_toNat, BitVec.toNat_ofNat, Nat.mod_eq_of_lt (by omega)]
  exact or_eq_add 12 p nnn.toNat (by omega)

theorem encode_toNat_xkk (p : Nat) (hp : p < 16) (x : Reg) (kk : Byte) :
    (BitVec.ofNat 16 (4096 * p) ||| placeX x ||| placeKK kk).toNat = 4096 * p + 256 * x.toNat + kk.toNat := by
  have := x.isLt
  have := kk.isLt
  rw [BitVec.toNat_or, BitVec.toNat_or, placeKK_toNat, placeX_toNat, BitVec.toNat_ofNat, Nat.mod_eq_of_lt (by omega)]
  have h1 := or_eq_add 12 p (256 * x.toNat) (by omega)
  have h2 := or_eq_add 8 (16 * p + x.toNat) kk.toNat (by omega)
  norm_num at h1 h2
  rw [h1, show 4096 * p + 256 * x.toNat = 256 * (16 * p + x.toNat) by ring, h2]

theorem encode_toNat_xyn (p q : Nat) (hp : p < 16) (hq : q < 16) (x y : Reg) :
    (BitVec.ofNat 16 (4096 * p + q) ||| placeX x ||| placeY y).toNat = 4096 * p + 256 * x.toNat + 16 * y.toNat + q := by
  have := x.isLt
  have := y.isLt
  rw [BitVec.toNat_or, BitVec.toNat_or, placeX_toNat, placeY_toNat, BitVec.toNat_ofNat, Nat.mod_eq_of_lt (by omega)]
  have h0 := or_eq_add 12 p q (by omega)
  have h1 := or_eq_add 8 x.toNat q (by omega)
  have h2 := or_eq_add 12 p (256 * x.toNat + q) (by omega)
  have h3 := or_eq_add 4 y.toNat q (by omega)
  have h4 := or_eq_add 8 (16 * p + x.toNat) (16 * y.toNat + q) (by omega)
  norm_num at h0 h1 h2 h3 h4
  rw [← h0, Nat.or_assoc (4096 * p) q, Nat.or_comm q, h1, h2,
    show 4096 * p + (256 * x.toNat + q) = 256 * (16 * p + x.toNat) + q by ring]
  have h5 := or_eq_add 8 (16 * p + x.toNat) q (by omega)
  norm_num at h5
  rw [← h5, Nat.or_assoc, Nat.or_comm q, h3, h4]
  ring

theorem encode_toNat_draw (p : Nat) (hp : p < 16) (x y : Reg) (n : Nibble) :
    (BitVec.ofNat 16 (4096 * p) ||| placeX x ||| placeY y ||| placeN n).toNat =
      4096 * p + 256 * x.toNat + 16 * y.toNat + n.toNat := by
  have := x.isLt
  have := y.isLt
  have := n.isLt
  have e := encode_toNat_xyn p 0 hp (by omega) x y
  rw [Nat.add_zero] at e
  rw [BitVec.toNat_or, e, placeN_toNat]
  have h := or_eq_add 4 (256 * p + 16 * x.toNat + y.toNat) n.toNat (by omega)
  norm_num at h
  rw [show 4096 * p + 256 * x.toNat + 16 * y.toNat + 0 = 16 * (256 * p + 16 * x.toNat + y.toNat) by ring, h]
  ring

theorem encode_toNat_x (p q : Nat) (hp : p < 16) (hq : q < 256) (x : Reg) :
    (BitVec.ofNat 16 (4096 * p + q) ||| placeX x).toNat = 4096 * p + 256 * x.toNat + q := by
  have := x.isLt
  rw [BitVec.toNat_or, placeX_toNat, BitVec.toNat_ofNat, Nat.mod_eq_of_lt (by omega)]
  have h0 := or_eq_add 12 p q (by omega)
  have h1 := or_eq_add 8 x.toNat q (by omega)
  have h2 := or_eq_add 12 p (256 * x.toNat + q) (by omega)
  norm_num at h0 h1 h2
  rw [← h0, Nat.or_assoc, Nat.or_comm q, h1, h2]
  ring

/-! ### Fields as numbers -/

theorem fieldOp_toNat (w : Word) : (fieldOp w).toNat = w.toNat / 4096 := by
  have := w.isLt
  simp only [fieldOp, BitVec.extractLsb'_toNat, Nat.shiftRight_eq_div_pow]
  omega

theorem fieldX_toNat (w : Word) : (fieldX w).toNat = w.toNat / 256 % 16 := by
  simp [fieldX, BitVec.extractLsb'_toNat, Nat.shiftRight_eq_div_pow]

theorem fieldY_toNat (w : Word) : (fieldY w).toNat = w.toNat / 16 % 16 := by
  simp [fieldY, BitVec.extractLsb'_toNat, Nat.shiftRight_eq_div_pow]

theorem fieldN_toNat (w : Word) : (fieldN w).toNat = w.toNat % 16 := by
  simp [fieldN, BitVec.extractLsb'_toNat]

theorem fieldKK_toNat (w : Word) : (fieldKK w).toNat = w.toNat % 256 := by
  simp [fieldKK, BitVec.extractLsb'_toNat]

theorem fieldNNN_toNat (w : Word) : (fieldNNN w).toNat = w.toNat % 4096 := by
  simp [fieldNNN, BitVec.extractLsb'_toNat]

theorem wordOfBytes_toNat (hi lo : Byte) : (wordOfBytes hi lo).toNat = hi.toNat * 256 + lo.toNat := by
  have h := or_eq_add 8 hi.toNat lo.toNat (by have := lo.isLt; omega)
  norm_num at h
  rw [wordOfBytes, BitVec.toNat_append, Nat.shiftLeft_eq, show hi.toNat * 2 ^ 8 = 256 * hi.toNat by ring, h]
  ring

/-- Laying a word out in two bytes and reading them back gives the word (rule R52). -/
@[simp] theorem wordOfBytes_high_low (w : Word) : wordOfBytes (highByte w) (lowByte w) = w := by
  apply BitVec.eq_of_toNat_eq
  have := w.isLt
  rw [wordOfBytes_toNat]
  simp only [highByte, lowByte, BitVec.extractLsb'_toNat, Nat.shiftRight_eq_div_pow]
  omega

end Sys2Proof
end

