-- ==== Sys2Proof/Laws/PerInstr.lean ====
section
/-! SUPPORT. Statements made per instruction. `WrittenForm`: the written form of every instruction is well formed, and
assembles back to the instruction (with the ignored `y` nibble of `shr` and `shl` set to 0), rules R72, R78, R82. -/

namespace Sys2Proof.Laws

/-- The written form of `i` is well formed and assembles to the instruction the spec's assembler writes for it. -/
def WrittenForm.Statement (i : Instr) : Prop :=
  i.wellFormed = true ∧ i.toLine.assemble = some i.canonical

theorem reg_isReg (x : Reg) : (Operand.reg x.toNat).isReg = true := by
  have := x.isLt
  simp [Operand.isReg]
  omega

theorem imm_isImm {w : Nat} (v : BitVec w) : (Operand.imm v.toNat).isImm w = true := by
  simp [Operand.isImm, v.isLt]

@[simp] theorem reg_toReg (x : Reg) : (Operand.reg x.toNat).toReg = x := by simp [Operand.toReg]

@[simp] theorem imm_toImm {w : Nat} (v : BitVec w) : (Operand.imm v.toNat).toImm w = v := by simp [Operand.toImm]

/-- An instruction whose operands its format accepts is written and read back. -/
theorem written {i : Instr} (h : i.mnemonic.format.accepts i.operands = true)
    (hb : i.mnemonic.build (i.operands.getD 0 (.imm 0)) (i.operands.getD 1 (.imm 0)) (i.operands.getD 2 (.imm 0)) =
      i.canonical) : WrittenForm.Statement i := by
  refine ⟨h, ?_⟩
  have h' : i.toLine.wellFormed = true := h
  rw [Line.assemble, if_pos h']
  exact congrArg some hb

theorem WrittenForm.clear : WrittenForm.Statement (.clear) :=
  written (rfl)
    (rfl)

theorem WrittenForm.ret : WrittenForm.Statement (.ret) :=
  written (rfl)
    (rfl)

theorem WrittenForm.jump (nnn : Imm12) : WrittenForm.Statement (.jump nnn) :=
  written (by simp [Instr.mnemonic, Mnemonic.format, Instr.operands, Format.accepts, imm_isImm])
    (by simp [Instr.mnemonic, Instr.operands, Mnemonic.build, Instr.canonical])

theorem WrittenForm.call (nnn : Imm12) : WrittenForm.Statement (.call nnn) :=
  written (by simp [Instr.mnemonic, Mnemonic.format, Instr.operands, Format.accepts, imm_isImm])
    (by simp [Instr.mnemonic, Instr.operands, Mnemonic.build, Instr.canonical])

theorem WrittenForm.skipEqImm (x : Reg) (kk : Byte) : WrittenForm.Statement (.skipEqImm x kk) :=
  written (by simp [Instr.mnemonic, Mnemonic.format, Instr.operands, Format.accepts, reg_isReg, imm_isImm])
    (by simp [Instr.mnemonic, Instr.operands, Mnemonic.build, Instr.canonical])

theorem WrittenForm.skipNeImm (x : Reg) (kk : Byte) : WrittenForm.Statement (.skipNeImm x kk) :=
  written (by simp [Instr.mnemonic, Mnemonic.format, Instr.operands, Format.accepts, reg_isReg, imm_isImm])
    (by simp [Instr.mnemonic, Instr.operands, Mnemonic.build, Instr.canonical])

theorem WrittenForm.skipEqReg (x y : Reg) : WrittenForm.Statement (.skipEqReg x y) :=
  written (by simp [Instr.mnemonic, Mnemonic.format, Instr.operands, Format.accepts, reg_isReg])
    (by simp [Instr.mnemonic, Instr.operands, Mnemonic.build, Instr.canonical])

theorem WrittenForm.loadImm (x : Reg) (kk : Byte) : WrittenForm.Statement (.loadImm x kk) :=
  written (by simp [Instr.mnemonic, Mnemonic.format, Instr.operands, Format.accepts, reg_isReg, imm_isImm])
    (by simp [Instr.mnemonic, Instr.operands, Mnemonic.build, Instr.canonical])

theorem WrittenForm.addImm (x : Reg) (kk : Byte) : WrittenForm.Statement (.addImm x kk) :=
  written (by simp [Instr.mnemonic, Mnemonic.format, Instr.operands, Format.accepts, reg_isReg, imm_isImm])
    (by simp [Instr.mnemonic, Instr.operands, Mnemonic.build, Instr.canonical])

theorem WrittenForm.move (x y : Reg) : WrittenForm.Statement (.move x y) :=
  written (by simp [Instr.mnemonic, Mnemonic.format, Instr.operands, Format.accepts, reg_isReg])
    (by simp [Instr.mnemonic, Instr.operands, Mnemonic.build, Instr.canonical])

theorem WrittenForm.or (x y : Reg) : WrittenForm.Statement (.or x y) :=
  written (by simp [Instr.mnemonic, Mnemonic.format, Instr.operands, Format.accepts, reg_isReg])
    (by simp [Instr.mnemonic, Instr.operands, Mnemonic.build, Instr.canonical])

theorem WrittenForm.and (x y : Reg) : WrittenForm.Statement (.and x y) :=
  written (by simp [Instr.mnemonic, Mnemonic.format, Instr.operands, Format.accepts, reg_isReg])
    (by simp [Instr.mnemonic, Instr.operands, Mnemonic.build, Instr.canonical])

theorem WrittenForm.xor (x y : Reg) : WrittenForm.Statement (.xor x y) :=
  written (by simp [Instr.mnemonic, Mnemonic.format, Instr.operands, Format.accepts, reg_isReg])
    (by simp [Instr.mnemonic, Instr.operands, Mnemonic.build, Instr.canonical])

theorem WrittenForm.add (x y : Reg) : WrittenForm.Statement (.add x y) :=
  written (by simp [Instr.mnemonic, Mnemonic.format, Instr.operands, Format.accepts, reg_isReg])
    (by simp [Instr.mnemonic, Instr.operands, Mnemonic.build, Instr.canonical])

theorem WrittenForm.sub (x y : Reg) : WrittenForm.Statement (.sub x y) :=
  written (by simp [Instr.mnemonic, Mnemonic.format, Instr.operands, Format.accepts, reg_isReg])
    (by simp [Instr.mnemonic, Instr.operands, Mnemonic.build, Instr.canonical])

theorem WrittenForm.shr (x y : Reg) : WrittenForm.Statement (.shr x y) :=
  written (by simp [Instr.mnemonic, Mnemonic.format, Instr.operands, Format.accepts, reg_isReg])
    (by simp [Instr.mnemonic, Instr.operands, Mnemonic.build, Instr.canonical])

theorem WrittenForm.subn (x y : Reg) : WrittenForm.Statement (.subn x y) :=
  written (by simp [Instr.mnemonic, Mnemonic.format, Instr.operands, Format.accepts, reg_isReg])
    (by simp [Instr.mnemonic, Instr.operands, Mnemonic.build, Instr.canonical])

theorem WrittenForm.shl (x y : Reg) : WrittenForm.Statement (.shl x y) :=
  written (by simp [Instr.mnemonic, Mnemonic.format, Instr.operands, Format.accepts, reg_isReg])
    (by simp [Instr.mnemonic, Instr.operands, Mnemonic.build, Instr.canonical])

theorem WrittenForm.skipNeReg (x y : Reg) : WrittenForm.Statement (.skipNeReg x y) :=
  written (by simp [Instr.mnemonic, Mnemonic.format, Instr.operands, Format.accepts, reg_isReg])
    (by simp [Instr.mnemonic, Instr.operands, Mnemonic.build, Instr.canonical])

theorem WrittenForm.loadIndex (nnn : Imm12) : WrittenForm.Statement (.loadIndex nnn) :=
  written (by simp [Instr.mnemonic, Mnemonic.format, Instr.operands, Format.accepts, imm_isImm])
    (by simp [Instr.mnemonic, Instr.operands, Mnemonic.build, Instr.canonical])

theorem WrittenForm.jumpOffset (nnn : Imm12) : WrittenForm.Statement (.jumpOffset nnn) :=
  written (by simp [Instr.mnemonic, Mnemonic.format, Instr.operands, Format.accepts, imm_isImm])
    (by simp [Instr.mnemonic, Instr.operands, Mnemonic.build, Instr.canonical])

theorem WrittenForm.rand (x : Reg) (kk : Byte) : WrittenForm.Statement (.rand x kk) :=
  written (by simp [Instr.mnemonic, Mnemonic.format, Instr.operands, Format.accepts, reg_isReg, imm_isImm])
    (by simp [Instr.mnemonic, Instr.operands, Mnemonic.build, Instr.canonical])

theorem WrittenForm.draw (x y : Reg) (n : Nibble) : WrittenForm.Statement (.draw x y n) :=
  written (by simp [Instr.mnemonic, Mnemonic.format, Instr.operands, Format.accepts, reg_isReg, imm_isImm])
    (by simp [Instr.mnemonic, Instr.operands, Mnemonic.build, Instr.canonical])

theorem WrittenForm.skipKey (x : Reg) : WrittenForm.Statement (.skipKey x) :=
  written (by simp [Instr.mnemonic, Mnemonic.format, Instr.operands, Format.accepts, reg_isReg])
    (by simp [Instr.mnemonic, Instr.operands, Mnemonic.build, Instr.canonical])

theorem WrittenForm.skipNokey (x : Reg) : WrittenForm.Statement (.skipNokey x) :=
  written (by simp [Instr.mnemonic, Mnemonic.format, Instr.operands, Format.accepts, reg_isReg])
    (by simp [Instr.mnemonic, Instr.operands, Mnemonic.build, Instr.canonical])

theorem WrittenForm.loadDelay (x : Reg) : WrittenForm.Statement (.loadDelay x) :=
  written (by simp [Instr.mnemonic, Mnemonic.format, Instr.operands, Format.accepts, reg_isReg])
    (by simp [Instr.mnemonic, Instr.operands, Mnemonic.build, Instr.canonical])

theorem WrittenForm.waitKey (x : Reg) : WrittenForm.Statement (.waitKey x) :=
  written (by simp [Instr.mnemonic, Mnemonic.format, Instr.operands, Format.accepts, reg_isReg])
    (by simp [Instr.mnemonic, Instr.operands, Mnemonic.build, Instr.canonical])

theorem WrittenForm.setDelay (x : Reg) : WrittenForm.Statement (.setDelay x) :=
  written (by simp [Instr.mnemonic, Mnemonic.format, Instr.operands, Format.accepts, reg_isReg])
    (by simp [Instr.mnemonic, Instr.operands, Mnemonic.build, Instr.canonical])

theorem WrittenForm.setSound (x : Reg) : WrittenForm.Statement (.setSound x) :=
  written (by simp [Instr.mnemonic, Mnemonic.format, Instr.operands, Format.accepts, reg_isReg])
    (by simp [Instr.mnemonic, Instr.operands, Mnemonic.build, Instr.canonical])

theorem WrittenForm.addIndex (x : Reg) : WrittenForm.Statement (.addIndex x) :=
  written (by simp [Instr.mnemonic, Mnemonic.format, Instr.operands, Format.accepts, reg_isReg])
    (by simp [Instr.mnemonic, Instr.operands, Mnemonic.build, Instr.canonical])

theorem WrittenForm.fontAddr (x : Reg) : WrittenForm.Statement (.fontAddr x) :=
  written (by simp [Instr.mnemonic, Mnemonic.format, Instr.operands, Format.accepts, reg_isReg])
    (by simp [Instr.mnemonic, Instr.operands, Mnemonic.build, Instr.canonical])

theorem WrittenForm.bcd (x : Reg) : WrittenForm.Statement (.bcd x) :=
  written (by simp [Instr.mnemonic, Mnemonic.format, Instr.operands, Format.accepts, reg_isReg])
    (by simp [Instr.mnemonic, Instr.operands, Mnemonic.build, Instr.canonical])

theorem WrittenForm.storeRegs (x : Reg) : WrittenForm.Statement (.storeRegs x) :=
  written (by simp [Instr.mnemonic, Mnemonic.format, Instr.operands, Format.accepts, reg_isReg])
    (by simp [Instr.mnemonic, Instr.operands, Mnemonic.build, Instr.canonical])

theorem WrittenForm.loadRegs (x : Reg) : WrittenForm.Statement (.loadRegs x) :=
  written (by simp [Instr.mnemonic, Mnemonic.format, Instr.operands, Format.accepts, reg_isReg])
    (by simp [Instr.mnemonic, Instr.operands, Mnemonic.build, Instr.canonical])

end Sys2Proof.Laws
end

