-- ==== Sys2Proof/Laws/Plotter.lean ====
section
/-! SUPPORT. What the plotter does: it keeps the number of cells, and what one pixel leaves in each cell. -/

namespace Sys2Proof.Machine

@[simp] theorem plotPixel_length (j : Nat) (bit : Bool) (p : Plot) : (plotPixel j bit p).1.length = p.1.length := by
  simp [plotPixel]

/-- One pixel inverts its own cell when the sprite bit is 1 and leaves every other cell. -/
theorem plotPixel_getD (j : Nat) (bit : Bool) (p : Plot) (hj : j < p.1.length) (k : Nat) :
    (plotPixel j bit p).1.getD k false = (p.1.getD k false ^^ (decide (k = j) && bit)) := by
  by_cases h : k = j
  · subst h
    simp [plotPixel, List.getD_eq_getElem?_getD, hj]
  · simp [plotPixel, List.getD_eq_getElem?_getD, h, Ne.symm h]

theorem plotPixel_hit (j : Nat) (bit : Bool) (p : Plot) :
    (plotPixel j bit p).2 = (p.2 || (bit && p.1.getD j false)) := rfl

@[simp] theorem plotRow_length (W H x y r : Nat) (b : Byte) (p : Plot) :
    (plotRow W H x y r b p).1.length = p.1.length := by
  unfold plotRow
  induction List.range Config.spriteWidth generalizing p with
  | nil => rfl
  | cons c cs ih => rw [List.foldl_cons, ih, plotPixel_length]

@[simp] theorem plotRows_length (W H x y : Nat) (bs : List Byte) (r : Nat) (p : Plot) :
    (plotRows W H x y r bs p).1.length = p.1.length := by
  induction bs generalizing r p with
  | nil => rfl
  | cons b bs ih => rw [plotRows, ih, plotRow_length]

/-- The plotter keeps the number of cells. -/
@[simp] theorem drawBytes_length (W H x y : Nat) (bytes : List Byte) (fb : List Bool) :
    (drawBytes W H x y bytes fb).1.length = fb.length := plotRows_length W H x y bytes 0 (fb, false)

/-- No bytes, no change and no collision (rule R161). -/
@[simp] theorem drawBytes_nil (W H x y : Nat) (fb : List Bool) : drawBytes W H x y [] fb = (fb, false) := rfl

/-- Every pixel falls on a cell of the display (rule R168). -/
theorem pixelCell_lt {W H : Nat} (hW : 1 ≤ W) (hH : 1 ≤ H) (x y r c : Nat) : pixelCell W H x y r c < W * H := by
  have h1 : (x + c) % W < W := Nat.mod_lt _ hW
  have h2 : (y + r) % H < H := Nat.mod_lt _ hH
  have h3 : ((y + r) % H + 1) * W ≤ H * W := Nat.mul_le_mul_right W h2
  unfold pixelCell
  rw [Nat.mul_comm W H]
  calc (y + r) % H * W + (x + c) % W < (y + r) % H * W + W := by omega
    _ = ((y + r) % H + 1) * W := by ring
    _ ≤ H * W := h3

/-- Sums that differ by less than the modulus have different remainders. -/
theorem add_mod_inj {a m i j : Nat} (hi : i < m) (hj : j < m) (h : (a + i) % m = (a + j) % m) : i = j := by
  have : i ≡ j [MOD m] := Nat.ModEq.add_left_cancel' a h
  rwa [Nat.ModEq, Nat.mod_eq_of_lt hi, Nat.mod_eq_of_lt hj] at this

/-- Where no two pixels of a sprite can fall on one cell (rule R165), the pixel is known from its cell. -/
theorem pixelCell_inj {W H x y r c r' c' : Nat} (hr : r < H) (hr' : r' < H) (hc : c < W) (hc' : c' < W)
    (h : pixelCell W H x y r c = pixelCell W H x y r' c') : r = r' ∧ c = c' := by
  have hW : 0 < W := by omega
  unfold pixelCell at h
  have h1 : (x + c) % W < W := Nat.mod_lt _ hW
  have h2 : (x + c') % W < W := Nat.mod_lt _ hW
  have hcol := congrArg (· % W) h
  have hrow := congrArg (· / W) h
  simp only [Nat.mul_add_mod_self_right, Nat.mod_mod] at hcol
  simp only [Nat.add_comm ((y + r) % H * W), Nat.add_comm ((y + r') % H * W), Nat.add_mul_div_right _ _ hW,
    Nat.div_eq_of_lt h1, Nat.div_eq_of_lt h2, Nat.zero_add] at hrow
  exact ⟨add_mod_inj hr hr' hrow, add_mod_inj hc hc' hcol⟩

end Sys2Proof.Machine
end

