-- ==== Sys2Proof/Laws/Registers.lean ====
section
/-! SUPPORT. The register file and the operand forms: a read after a write, the register list of `store-regs` and
`load-regs`, the flag byte, keys. -/

namespace Sys2Proof.Machine

/-- A register read depends on the register file only. -/
theorem State.reg_congr {s t : State} (h : t.v = s.v) (r : Reg) : t.reg r = s.reg r := by
  simp [State.reg, h]

@[simp] theorem State.reg_setReg (s : State) (r q : Reg) (b : Byte) :
    (s.setReg r b).reg q = if q = r then b else s.reg q := by
  simp only [State.reg, State.setReg, Vector.getElem_set]
  simp only [← BitVec.toNat_eq, eq_comm]

theorem State.setReg_eq (s : State) (r : Reg) (b : Byte) : s.setReg r b = { s with v := (s.setReg r b).v } := rfl

/-- Two register files that read the same are the same. -/
theorem State.v_ext {s t : State} (h : ∀ r : Reg, s.reg r = t.reg r) : s.v = t.v := by
  apply Vector.ext
  intro k hk
  have := h (BitVec.ofNat 4 k)
  simpa [State.reg, Nat.mod_eq_of_lt hk] using this

theorem State.setRegs_eq (bs : List Byte) (s : State) (k : Nat) :
    s.setRegs k bs = { s with v := (s.setRegs k bs).v } := by
  induction bs generalizing s k with
  | nil => rfl
  | cons b bs ih => rw [State.setRegs, ih]; rfl

/-- What a list of register writes from register `k` leaves in a register. -/
theorem State.reg_setRegs (bs : List Byte) (s : State) (k : Nat) (hk : k + bs.length ≤ 16) (r : Reg) :
    (s.setRegs k bs).reg r = if k ≤ r.toNat ∧ r.toNat < k + bs.length then bs.getD (r.toNat - k) 0#8 else s.reg r := by
  induction bs generalizing s k with
  | nil => simp [State.setRegs]
  | cons b bs ih =>
    have hl : (b :: bs).length = bs.length + 1 := rfl
    rw [hl] at hk ⊢
    rw [State.setRegs, ih _ (k + 1) (by omega), State.reg_setReg]
    have hreg : r = BitVec.ofNat 4 k ↔ r.toNat = k := by
      rw [← BitVec.toNat_inj, BitVec.toNat_ofNat, Nat.mod_eq_of_lt (by omega)]
    by_cases h1 : k + 1 ≤ r.toNat ∧ r.toNat < k + 1 + bs.length
    · rw [if_pos h1, if_pos ⟨by omega, by omega⟩]
      obtain ⟨j, hj⟩ : ∃ j, r.toNat - k = j + 1 := ⟨r.toNat - k - 1, by omega⟩
      rw [hj, show r.toNat - (k + 1) = j by omega]
      rfl
    · rw [if_neg h1]
      by_cases h2 : r.toNat = k
      · rw [if_pos (hreg.mpr h2), if_pos ⟨by omega, by omega⟩]
        simp [h2]
      · rw [if_neg (fun e => h2 (hreg.mp e)), if_neg (by omega)]

@[simp] theorem State.regsUpTo_length (s : State) (x : Reg) : (s.regsUpTo x).length = x.toNat + 1 := by
  simp [State.regsUpTo, regCount]

theorem State.regsUpTo_getElem? (s : State) (x : Reg) (k : Nat) :
    (s.regsUpTo x)[k]? = if k < x.toNat + 1 then some (s.reg (BitVec.ofNat 4 k)) else none := by
  by_cases h : k < x.toNat + 1 <;> simp [State.regsUpTo, regCount, h]

@[simp] theorem flagByte_eq_one (f : Bool) : flagByte f = 1#8 ↔ f = true := by cases f <;> decide

@[simp] theorem State.reg_setFlag (s : State) (f : Bool) (q : Reg) :
    (s.setFlag f).reg q = if q = vf then flagByte f else s.reg q := State.reg_setReg s vf q (flagByte f)

theorem keyNumber_some {b : Byte} (h : b.toNat ≤ 15) : keyNumber b = some (b.setWidth 4) := if_pos h

theorem keyNumber_none {b : Byte} (h : 15 < b.toNat) : keyNumber b = none := if_neg (by omega)

theorem State.key_setKeyBit (s : State) (k q : Reg) (p : Bool) :
    (s.setKeyBit k p).key q = if q = k then p else s.key q := by
  simp only [State.key, State.setKeyBit, Vector.getElem_set]
  simp only [← BitVec.toNat_eq, eq_comm]

/-- The scan of `wait-key` finds nothing exactly when no key is pressed. -/
theorem State.firstPressed_none (s : State) : s.firstPressed = none ↔ ∀ k : Reg, s.key k = false := by
  simp only [State.firstPressed, List.find?_eq_none, List.mem_map, List.mem_range, forall_exists_index, and_imp,
    forall_apply_eq_imp_iff₂, Bool.not_eq_true]
  constructor
  · intro h k
    have := h k.toNat k.isLt
    simpa using this
  · intro h k _
    exact h _

/-- The scan of `wait-key` finds the lowest pressed key. -/
theorem State.firstPressed_some (s : State) (k : Reg) :
    s.firstPressed = some k ↔ s.key k = true ∧ ∀ j : Reg, j.toNat < k.toNat → s.key j = false := by
  have hmem : (List.range 16).map (BitVec.ofNat 4) =
      ((List.range k.toNat).map (BitVec.ofNat 4)) ++ k :: ((List.range' (k.toNat + 1) (15 - k.toNat)).map (BitVec.ofNat 4)) := by
    revert k; decide
  have hlow : (∀ j : Reg, j.toNat < k.toNat → s.key j = false) ↔
      ((List.range k.toNat).map (BitVec.ofNat 4)).find? s.key = none := by
    simp only [List.find?_eq_none, List.mem_map, List.mem_range, forall_exists_index, and_imp, forall_apply_eq_imp_iff₂,
      Bool.not_eq_true]
    constructor
    · intro h a ha
      apply h
      have := k.isLt
      rw [BitVec.toNat_ofNat, Nat.mod_eq_of_lt (by omega)]
      exact ha
    · intro h j hj
      have := h j.toNat hj
      simpa using this
  rw [hlow, State.firstPressed, hmem, List.find?_append]
  cases hf : ((List.range k.toNat).map (BitVec.ofNat 4)).find? s.key with
  | none => 
    cases hk : s.key k with
    | true => simp [hk]
    | false =>
      simp only [List.find?_cons, hk, Option.none_or, Bool.false_eq_true, false_and, iff_false]
      intro h
      have := List.find?_some h
      simp [hk] at this
  | some j =>
    simp only [Option.some_or, Option.some.injEq, reduceCtorEq, and_false, iff_false]
    rintro rfl
    have := List.mem_of_find?_eq_some hf
    simp only [List.mem_map, List.mem_range] at this
    obtain ⟨a, ha, he⟩ := this
    have h2 := congrArg BitVec.toNat he
    have := j.isLt
    rw [BitVec.toNat_ofNat, Nat.mod_eq_of_lt (by omega)] at h2
    omega

end Sys2Proof.Machine
end

