-- ==== Sys2Proof/Laws/Step.lean ====
section
/-! SUPPORT. What the shared operations and one step do, said once: fault entry, skips, the ALU writes, the shape of a
step. -/

namespace Sys2Proof.Machine

/-! ### Faults -/

/-- Raising a fault is rule R202's fault entry. -/
theorem raiseFault_eq (c : FaultCause) (w : Word) (s : State) : raiseFault c w s = .next (FaultedState c w s) := rfl

theorem outOfBounds_iff (s : State) (n : Nat) : s.outOfBounds n = true ↔ 0x1000 < s.i.toNat + n := by
  exact decide_eq_true_iff

/-! ### Skips and ALU writes -/

theorem skipIf_eq (c : Bool) (s : State) : skipIf c s = { s with pc := if c then s.pc + 2#16 else s.pc } := by
  cases c <;> rfl

theorem aluWrite_eq (op : AluOp) (x : Reg) (a b : Byte) (s : State) :
    aluWrite op x a b s = { s with v := (aluWrite op x a b s).v } := rfl

@[simp] theorem reg_aluWrite (op : AluOp) (x q : Reg) (a b : Byte) (s : State) :
    (aluWrite op x a b s).reg q = if q = x then aluResult op a b else s.reg q := State.reg_setReg s x q _

/-- Result first, flag second: the flag register ends as the flag whatever the destination (rule R134). -/
theorem reg_aluWriteThenFlag {op : AluOp} {a b : Byte} {f : Bool} (hf : aluFlag op a b = some f) (x q : Reg) (s : State) :
    (aluWriteThenFlag op x a b s).reg q = if q = vf then flagByte f else if q = x then aluResult op a b else s.reg q := by
  simp [aluWriteThenFlag, hf]

theorem aluWriteThenFlag_eq (op : AluOp) (x : Reg) (a b : Byte) (s : State) :
    aluWriteThenFlag op x a b s = { s with v := (aluWriteThenFlag op x a b s).v } := by
  unfold aluWriteThenFlag
  cases aluFlag op a b <;> rfl

/-- Flag first, result second: for `x = 15` the result is computed from the flag just written (rules R129, R131). -/
theorem reg_aluFlagThenWrite {op : AluOp} {x : Reg} {s : State} {f : Bool} (hf : aluFlag op (s.reg x) 0#8 = some f)
    (q : Reg) :
    (aluFlagThenWrite op x s).reg q =
      if q = x then aluResult op (if x = vf then flagByte f else s.reg x) 0#8
      else if q = vf then flagByte f else s.reg q := by
  simp [aluFlagThenWrite, hf]

theorem aluFlagThenWrite_eq (op : AluOp) (x : Reg) (s : State) :
    aluFlagThenWrite op x s = { s with v := (aluFlagThenWrite op x s).v } := by
  unfold aluFlagThenWrite
  cases aluFlag op (s.reg x) 0#8 <;> rfl

/-! ### The shape of a step -/

theorem cycle_of_faulted {run : Instr → State → Result} {s : State} (h : s.fault ≠ none) : cycle run s = .next s := by
  cases hf : s.fault with
  | none => exact absurd hf h
  | some r => simp [cycle, hf]

theorem cycle_of_fetchFault {run : Instr → State → Result} {s : State} (h : s.fault = none) (hp : 0xFFE < s.pc.toNat) :
    cycle run s = .next (s.enterFault s.pc .fetchOutOfBounds s.pc) := by
  simp [cycle, h, State.canFetch, show ¬s.pc.toNat ≤ 0xFFE by omega]

theorem cycle_of_instr {run : Instr → State → Result} {s : State} {i : Instr} (h : s.fault = none)
    (hp : s.pc.toNat ≤ 0xFFE) (hd : decodeWord s.fetchWord = .instr i) : cycle run s = run i s.advance := by
  simp [cycle, h, State.canFetch, hp, fetchAndRun, hd]

theorem cycle_of_unknown {run : Instr → State → Result} {s : State} {w : Word} (h : s.fault = none)
    (hp : s.pc.toNat ≤ 0xFFE) (hd : decodeWord s.fetchWord = .unknown w) : cycle run s = .next s.advance := by
  simp [cycle, h, State.canFetch, hp, fetchAndRun, hd, execUnknown]

/-- The four ways a step can go: Faulted, a fetch fault, an instruction, an unrecognized word. -/
theorem cycle_cases (run : Instr → State → Result) (s : State) :
    (s.fault ≠ none ∧ cycle run s = .next s) ∨
    (s.fault = none ∧ 0xFFE < s.pc.toNat ∧ cycle run s = .next (s.enterFault s.pc .fetchOutOfBounds s.pc)) ∨
    (s.fault = none ∧ s.pc.toNat ≤ 0xFFE ∧ ∃ i, decodeWord s.fetchWord = .instr i ∧ cycle run s = run i s.advance) ∨
    (s.fault = none ∧ s.pc.toNat ≤ 0xFFE ∧ ∃ w, decodeWord s.fetchWord = .unknown w ∧ cycle run s = .next s.advance) := by
  by_cases hf : s.fault = none
  · by_cases hp : s.pc.toNat ≤ 0xFFE
    · cases hd : decodeWord s.fetchWord with
      | instr i => exact .inr (.inr (.inl ⟨hf, hp, i, rfl, cycle_of_instr hf hp hd⟩))
      | unknown w => exact .inr (.inr (.inr ⟨hf, hp, w, rfl, cycle_of_unknown hf hp hd⟩))
    · exact .inr (.inl ⟨hf, by omega, cycle_of_fetchFault hf (by omega)⟩)
  · exact .inl ⟨hf, cycle_of_faulted hf⟩

/-- The step is the `step(random_byte)` command with the next free draw for its byte. -/
theorem exec_eq_execWith (i : Instr) (s : State) : exec i s = execWith (Config.randomByte s.draws) i s := by
  cases i <;> rfl

/-- The fetched word as a number: big-endian (rule R52). -/
theorem fetchWord_toNat (s : State) :
    s.fetchWord.toNat = (s.byteAt s.pc.toNat).toNat * 256 + (s.byteAt (s.pc.toNat + 1)).toNat :=
  wordOfBytes_toNat _ _

end Sys2Proof.Machine
end

