-- ==== Sys2Proof/Tests/Slice0.lean ====
section
/-! SUPPORT. Tests of the model, and for every statement with hypotheses a witness that they can be met. Expected values come
from the spec: the rules' own examples and spec/95_test_vectors.md, whose vector (S…, V…) each test names. -/

namespace Sys2Proof.Tests

open Sys2Proof Sys2Proof.Machine

/-! ### Helpers -/

/-- Registers set in a state. -/
def withRegs (rs : List (Reg × Byte)) (s : State) : State := rs.foldl (fun t p => t.setReg p.1 p.2) s

/-- `s` about to run the instruction word `w` at address `pc`. -/
def placed (pc : Word) (w : Nat) (s : State) : State := ({ s with pc := pc }).withFetchWord 16 w

/-- The state after one step of the instruction word `w` at address `pc`. -/
def after (pc : Word) (w : Nat) (s : State) : Option State :=
  match step (placed pc w s) with
  | .next t => some t
  | _ => none

/-- The state after one step command with the random byte `rb`. -/
def afterWith (rb : Byte) (pc : Word) (w : Nat) (s : State) : Option State :=
  match stepWith rb (placed pc w s) with
  | .next t => some t
  | _ => none

/-- The state after a schedule of commands. -/
def afterCommands (cs : List Command) (s : State) : Option State :=
  match runCommands cs s with
  | .next t => some t
  | _ => none

/-- The fault record as numbers: cause code, address, info. -/
def faultNumbers (s : State) : Option (Nat × Nat × Nat) := s.fault.map fun r => (r.cause.code, r.pc.toNat, r.info.toNat)

/-- The numbers of the cells that are On, counted from `j`. -/
def lit (j : Nat) : List Bool → List Nat
  | [] => []
  | true :: cells => j :: lit (j + 1) cells
  | false :: cells => lit (j + 1) cells

/-- `I = 0x300`, the sprite bytes there, and the position registers `V0`, `V1` on a clear display of one row of 64
cells (the rules hold for every `H`, and the vectors below stay in row 0). -/
def sprite (bytes : List Byte) (v0 v1 : Byte) : State :=
  withRegs [(0#4, v0), (1#4, v1)] (((State.resetWith ⟨64, 1, defaultFont⟩).setI 0x300#16).storeBytes 0x300 bytes)

/-! ### Well-formed lines (rules R72, R73, R78): each check refuses an ill-formed line -/

theorem test_wf_accepts :
    (⟨.loadImm, [.reg 3, .imm 0x7F]⟩ : Line).assemble = some (.loadImm 3#4 0x7F#8) ∧
    (⟨.jump, [.imm 0xFFF]⟩ : Line).assemble = some (.jump 0xFFF#12) ∧
    (⟨.draw, [.reg 0, .reg 1, .imm 5]⟩ : Line).assemble = some (.draw 0#4 1#4 5#4) ∧
    (⟨.shr, [.reg 3]⟩ : Line).assemble = some (.shr 3#4 0#4) ∧
    (⟨.skipKey, [.reg 15]⟩ : Line).assemble = some (.skipKey 15#4) := by decide

theorem test_wf_refuses_register_16 :
    (⟨.loadImm, [.reg 16, .imm 0]⟩ : Line).wellFormed = false ∧ (⟨.move, [.reg 0, .reg 16]⟩ : Line).wellFormed = false ∧
    (⟨.shl, [.reg 16]⟩ : Line).wellFormed = false ∧ (⟨.bcd, [.reg 16]⟩ : Line).wellFormed = false ∧
    (⟨.draw, [.reg 0, .reg 16, .imm 1]⟩ : Line).wellFormed = false := by decide

theorem test_wf_refuses_wide_immediate :
    (⟨.jump, [.imm 0x1000]⟩ : Line).wellFormed = false ∧ (⟨.addImm, [.reg 0, .imm 256]⟩ : Line).wellFormed = false ∧
    (⟨.draw, [.reg 0, .reg 1, .imm 16]⟩ : Line).wellFormed = false := by decide

theorem test_wf_refuses_wrong_count :
    (⟨.clear, [.reg 0]⟩ : Line).wellFormed = false ∧ (⟨.call, []⟩ : Line).wellFormed = false ∧
    (⟨.shr, [.reg 3, .reg 4]⟩ : Line).wellFormed = false ∧ (⟨.draw, [.reg 0, .reg 1]⟩ : Line).wellFormed = false ∧
    (⟨.rand, [.reg 0]⟩ : Line).wellFormed = false := by decide

theorem test_wf_refuses_wrong_kind :
    (⟨.jump, [.reg 0]⟩ : Line).wellFormed = false ∧ (⟨.add, [.reg 0, .imm 1]⟩ : Line).wellFormed = false ∧
    (⟨.loadImm, [.imm 3, .imm 0]⟩ : Line).wellFormed = false ∧ (⟨.loadRegs, [.imm 2]⟩ : Line).wellFormed = false := by decide

/-- The spelling of rule R78. -/
theorem test_text :
    (Instr.loadImm 3#4 0x7F#8).toLine.text = "load-imm V3,7F" ∧ (Instr.jump 0x20A#12).toLine.text = "jump 20A" ∧
    (Instr.draw 0#4 1#4 5#4).toLine.text = "draw V0,V1,5" ∧ disassemble 0x8306#16 = "shr V3" ∧
    disassemble 0x5121#16 = "unknown 5121" ∧ dataByteText 0x81#8 = "byte 81" := by decide

/-! ### Decoding: words written out bit by bit from the rows of rule R74 -/

theorem test_decode_display :
    decodeWord 0b0000000011100000#16 = .instr .clear ∧
    decodeWord 0b1101000000010101#16 = .instr (.draw 0#4 1#4 5#4) := by decide

theorem test_decode_control :
    decodeWord 0b0000000011101110#16 = .instr .ret ∧
    decodeWord 0b0001001000001010#16 = .instr (.jump 0x20A#12) ∧
    decodeWord 0b0010001000001010#16 = .instr (.call 0x20A#12) ∧
    decodeWord 0b0011001101111111#16 = .instr (.skipEqImm 3#4 0x7F#8) ∧
    decodeWord 0b0100001000010001#16 = .instr (.skipNeImm 2#4 0x11#8) ∧
    decodeWord 0b0101000100100000#16 = .instr (.skipEqReg 1#4 2#4) ∧
    decodeWord 0b1001000100100000#16 = .instr (.skipNeReg 1#4 2#4) ∧
    decodeWord 0b1011001100000000#16 = .instr (.jumpOffset 0x300#12) := by decide

theorem test_decode_load_and_logic :
    decodeWord 0b0110001101111111#16 = .instr (.loadImm 3#4 0x7F#8) ∧
    decodeWord 0b0111000011111111#16 = .instr (.addImm 0#4 0xFF#8) ∧
    decodeWord 0b1000000100100000#16 = .instr (.move 1#4 2#4) ∧
    decodeWord 0b1000000100100001#16 = .instr (.or 1#4 2#4) ∧
    decodeWord 0b1000000100100010#16 = .instr (.and 1#4 2#4) ∧
    decodeWord 0b1000000100100011#16 = .instr (.xor 1#4 2#4) ∧
    decodeWord 0b1100010000001111#16 = .instr (.rand 4#4 0x0F#8) := by decide

theorem test_decode_arithmetic :
    decodeWord 0b1000000100100100#16 = .instr (.add 1#4 2#4) ∧
    decodeWord 0b1000000100100101#16 = .instr (.sub 1#4 2#4) ∧
    decodeWord 0b1000001100000110#16 = .instr (.shr 3#4 0#4) ∧
    decodeWord 0b1000001110100110#16 = .instr (.shr 3#4 10#4) ∧
    decodeWord 0b1000000100100111#16 = .instr (.subn 1#4 2#4) ∧
    decodeWord 0b1000001100001110#16 = .instr (.shl 3#4 0#4) := by decide

theorem test_decode_index_and_memory :
    decodeWord 0b1010001100000000#16 = .instr (.loadIndex 0x300#12) ∧
    decodeWord 0b1111001000011110#16 = .instr (.addIndex 2#4) ∧
    decodeWord 0b1111000100101001#16 = .instr (.fontAddr 1#4) ∧
    decodeWord 0b1111000000110011#16 = .instr (.bcd 0#4) ∧
    decodeWord 0b1111000101010101#16 = .instr (.storeRegs 1#4) ∧
    decodeWord 0b1111001001100101#16 = .instr (.loadRegs 2#4) := by decide

theorem test_decode_keys_and_timers :
    decodeWord 0b1110000010011110#16 = .instr (.skipKey 0#4) ∧
    decodeWord 0b1110000010100001#16 = .instr (.skipNokey 0#4) ∧
    decodeWord 0b1111000100000111#16 = .instr (.loadDelay 1#4) ∧
    decodeWord 0b1111001100001010#16 = .instr (.waitKey 3#4) ∧
    decodeWord 0b1111101000010101#16 = .instr (.setDelay 10#4) ∧
    decodeWord 0b1111010100011000#16 = .instr (.setSound 5#4) := by decide

/-- The unknown words of vector V40-4, the zero word and rule R76's examples. -/
theorem test_decode_unknown :
    [0x0000#16, 0x00E1#16, 0x01E0#16, 0x5121#16, 0x8128#16, 0x812F#16, 0x9121#16, 0xE19F#16, 0xF166#16, 0xF000#16].all
      (fun w => decodeWord w == .unknown w) = true := by decide

/-- Byte order and length (rules R52, R70): `12 0A` is `jump 20A`, what follows is left over, one byte is too few. -/
theorem test_decode_bytes :
    decodeBytes [0x12#8, 0x0A#8, 0xFF#8] = .ok (.jump 0x20A#12, [0xFF#8]) ∧
    decodeBytes [0x12#8] = .error .tooFewBytes ∧
    decodeBytes [0x51#8, 0x21#8] = .error (.unrecognized 0x5121#16) ∧
    encodeBytes (.loadImm 3#4 0x7F#8) = [0x63#8, 0x7F#8] := ⟨rfl, rfl, rfl, by decide⟩

theorem test_decode_table_word :
    decodeTableWord 16 0xD015 = some (.draw 0#4 1#4 5#4) ∧ decodeTableWord 16 0x5121 = none := by decide

/-! ### One step of each instruction -/

/-- V40-1 and S8: `jump 20A`; the word is read high byte first. -/
theorem test_step_jump : (after 0x200#16 0x120A State.reset).map (·.pc) = some 0x20A#16 := by decide

/-- S8: `call 20A` at 0x204. -/
theorem test_step_call :
    (after 0x204#16 0x220A State.reset).map (fun t => (t.pc, t.sp, t.stack[1], t.stack[0])) =
      some (0x20A#16, 1#8, 0x206#16, 0#16) := by decide

/-- V41-9: the 16th nested call faults, nothing else changed. -/
theorem test_step_call_overflow :
    (after 0x250#16 0x2300 { State.reset with sp := 15#8 }).map (fun t => (faultNumbers t, t.pc, t.sp, t.stack[15])) =
      some (some (4, 0x250, 15), 0x250#16, 15#8, 0#16) := by decide

/-- V41-12: `return` at depth 2 leaves the slot as it was. -/
theorem test_step_return :
    (after 0x20C#16 0x00EE { State.reset with sp := 2#8, stack := (State.reset.stack.set 1 0x206#16).set 2 0x30A#16 }).map
      (fun t => (t.pc, t.sp, t.stack[2])) = some (0x30A#16, 1#8, 0x30A#16) := by decide

/-- V41-11: `return` at depth 0 faults. -/
theorem test_step_return_underflow :
    (after 0x202#16 0x00EE State.reset).map (fun t => (faultNumbers t, t.pc, t.sp)) =
      some (some (5, 0x202, 0), 0x202#16, 0#8) := by decide

/-- V41-2, V41-3. -/
theorem test_step_skip_eq_imm :
    (after 0x240#16 0x337F (withRegs [(3#4, 0x7F#8)] State.reset)).map (·.pc) = some 0x244#16 ∧
    (after 0x240#16 0x337F (withRegs [(3#4, 0x7E#8)] State.reset)).map (·.pc) = some 0x242#16 := by decide

/-- V41-4 and its complement (rule R104). -/
theorem test_step_skip_ne_imm :
    (after 0x240#16 0x437F (withRegs [(3#4, 0x7E#8)] State.reset)).map (·.pc) = some 0x244#16 ∧
    (after 0x240#16 0x437F (withRegs [(3#4, 0x7F#8)] State.reset)).map (·.pc) = some 0x242#16 := by decide

/-- V41-5, and unequal registers. -/
theorem test_step_skip_eq_reg :
    (after 0x240#16 0x5550 (withRegs [(5#4, 9#8)] State.reset)).map (·.pc) = some 0x244#16 ∧
    (after 0x240#16 0x5560 (withRegs [(5#4, 9#8)] State.reset)).map (·.pc) = some 0x242#16 := by decide

/-- V41-6, and rule R106's example. -/
theorem test_step_skip_ne_reg :
    (after 0x240#16 0x9550 (withRegs [(5#4, 9#8)] State.reset)).map (·.pc) = some 0x242#16 ∧
    (after 0x200#16 0x9120 (withRegs [(1#4, 7#8), (2#4, 8#8)] State.reset)).map (·.pc) = some 0x204#16 := by decide

/-- V41-7, V41-8: no reduction to 12 bits. -/
theorem test_step_jump_offset :
    (after 0x200#16 0xB300 (withRegs [(0#4, 4#8)] State.reset)).map (·.pc) = some 0x304#16 ∧
    (after 0x200#16 0xBFFF (withRegs [(0#4, 0xFF#8)] State.reset)).map (·.pc) = some 0x10FE#16 := by decide

/-- V42-1. -/
theorem test_step_load_imm : (after 0x200#16 0x6FAA State.reset).map (·.reg 15#4) = some 0xAA#8 := by decide

/-- S1: `add-imm` wraps and writes no flag. -/
theorem test_step_add_imm :
    (after 0x200#16 0x7102 (withRegs [(1#4, 0xFF#8)] State.reset)).map (fun t => (t.reg 1#4, t.reg vf)) =
      some (0x01#8, 0#8) := by decide

/-- V42-4. -/
theorem test_step_move :
    (after 0x200#16 0x8120 (withRegs [(2#4, 0xAB#8)] State.reset)).map (fun t => (t.reg 1#4, t.reg 2#4)) =
      some (0xAB#8, 0xAB#8) := by decide

/-- V42-5: `VF` is not reset. -/
theorem test_step_or :
    (after 0x200#16 0x8121 (withRegs [(1#4, 0xF0#8), (2#4, 0x0F#8), (15#4, 7#8)] State.reset)).map
      (fun t => (t.reg 1#4, t.reg vf)) = some (0xFF#8, 7#8) := by decide

/-- V42-6. -/
theorem test_step_and :
    (after 0x200#16 0x8122 (withRegs [(1#4, 0xF3#8), (2#4, 0x3F#8)] State.reset)).map (·.reg 1#4) = some 0x33#8 := by decide

/-- Rule R126's example, and V42-7. -/
theorem test_step_xor :
    (after 0x200#16 0x8123 (withRegs [(1#4, 0xFF#8), (2#4, 0x0F#8)] State.reset)).map (·.reg 1#4) = some 0xF0#8 ∧
    (after 0x200#16 0x8113 (withRegs [(1#4, 0x5A#8)] State.reset)).map (·.reg 1#4) = some 0#8 := by decide

/-- V42-8, V42-9. -/
theorem test_step_add :
    (after 0x200#16 0x8124 (withRegs [(1#4, 0x80#8), (2#4, 0x80#8)] State.reset)).map (fun t => (t.reg 1#4, t.reg vf)) =
      some (0#8, 1#8) ∧
    (after 0x200#16 0x8124 (withRegs [(1#4, 0x80#8), (2#4, 0x7F#8)] State.reset)).map (fun t => (t.reg 1#4, t.reg vf)) =
      some (0xFF#8, 0#8) := by decide

/-- V42-11, V42-13: `VF` as the destination and as the source. -/
theorem test_step_add_vf :
    (after 0x200#16 0x8F14 (withRegs [(15#4, 0xFF#8), (1#4, 1#8)] State.reset)).map (·.reg vf) = some 1#8 ∧
    (after 0x200#16 0x81F4 (withRegs [(1#4, 0xF0#8), (15#4, 0x20#8)] State.reset)).map (fun t => (t.reg 1#4, t.reg vf)) =
      some (0x10#8, 1#8) := by decide

/-- S2: both of the source's numbers. -/
theorem test_step_sub :
    (after 0x200#16 0x8125 (withRegs [(1#4, 0x1C#8), (2#4, 0x10#8)] State.reset)).map (fun t => (t.reg 1#4, t.reg vf)) =
      some (0x0C#8, 1#8) ∧
    (after 0x200#16 0x8125 (withRegs [(1#4, 0x10#8), (2#4, 0x1C#8)] State.reset)).map (fun t => (t.reg 1#4, t.reg vf)) =
      some (0xF4#8, 0#8) := by decide

/-- V42-14, V42-16: equal operands, and `VF` as the destination. -/
theorem test_step_sub_equal_and_vf :
    (after 0x200#16 0x8125 (withRegs [(1#4, 0x33#8), (2#4, 0x33#8)] State.reset)).map (fun t => (t.reg 1#4, t.reg vf)) =
      some (0#8, 1#8) ∧
    (after 0x200#16 0x8F15 (withRegs [(15#4, 5#8), (1#4, 3#8)] State.reset)).map (·.reg vf) = some 1#8 := by decide

/-- S2 for `subn`. -/
theorem test_step_subn :
    (after 0x200#16 0x8127 (withRegs [(1#4, 0x10#8), (2#4, 0x1C#8)] State.reset)).map
      (fun t => (t.reg 1#4, t.reg 2#4, t.reg vf)) = some (0x0C#8, 0x1C#8, 1#8) ∧
    (after 0x200#16 0x8127 (withRegs [(1#4, 0x1C#8), (2#4, 0x10#8)] State.reset)).map (fun t => (t.reg 1#4, t.reg vf)) =
      some (0xF4#8, 0#8) := by decide

/-- S3 and V40-7: the word 0x83A6 shifts `V3` and leaves `VA`. -/
theorem test_step_shr :
    (after 0x200#16 0x83A6 (withRegs [(3#4, 5#8), (10#4, 0x77#8)] State.reset)).map
      (fun t => (t.reg 3#4, t.reg 10#4, t.reg vf)) = some (2#8, 0x77#8, 1#8) := by decide

/-- V42-22. -/
theorem test_step_shr_vf : (after 0x200#16 0x8F06 (withRegs [(15#4, 3#8)] State.reset)).map (·.reg vf) = some 0#8 := by decide

/-- S3. -/
theorem test_step_shl :
    (after 0x200#16 0x830E (withRegs [(3#4, 0x81#8)] State.reset)).map (fun t => (t.reg 3#4, t.reg vf)) =
      some (2#8, 1#8) ∧
    (after 0x200#16 0x830E (withRegs [(3#4, 0x41#8)] State.reset)).map (fun t => (t.reg 3#4, t.reg vf)) =
      some (0x82#8, 0#8) := by decide

/-- V42-25, V42-26. -/
theorem test_step_shl_vf :
    (after 0x200#16 0x8F0E (withRegs [(15#4, 0x80#8)] State.reset)).map (·.reg vf) = some 2#8 ∧
    (after 0x200#16 0x8F0E (withRegs [(15#4, 0x7F#8)] State.reset)).map (·.reg vf) = some 0#8 := by decide

/-- V42-27, V42-29. -/
theorem test_step_rand :
    (afterWith 0xA5#8 0x200#16 0xC40F State.reset).map (·.reg 4#4) = some 5#8 ∧
    (afterWith 0x3C#8 0x200#16 0xC4FF State.reset).map (·.reg 4#4) = some 0x3C#8 := by decide

/-- V40-8: the random byte reaches no other instruction. -/
theorem test_step_ignores_random_byte :
    (afterWith 0x00#8 0x200#16 0x6412 State.reset).map (·.reg 4#4) = some 0x12#8 ∧
    (afterWith 0xFF#8 0x200#16 0x6412 State.reset).map (·.reg 4#4) = some 0x12#8 := by decide

/-- V43-1. -/
theorem test_step_load_index : (after 0x200#16 0xAFFF State.reset).map (·.i) = some 0xFFF#16 := by decide

/-- V43-2, V43-3. -/
theorem test_step_add_index :
    (after 0x200#16 0xF11E (withRegs [(1#4, 1#8)] (State.reset.setI 0xFFF#16))).map (fun t => (t.i, t.reg vf)) =
      some (0x1000#16, 0#8) ∧
    (after 0x200#16 0xF11E (withRegs [(1#4, 2#8)] (State.reset.setI 0xFFFF#16))).map (·.i) = some 1#16 := by decide

/-- S14, V43-5: the whole byte. -/
theorem test_step_font_addr :
    (after 0x200#16 0xF129 (withRegs [(1#4, 0x0A#8)] State.reset)).map (·.i) = some 0x32#16 ∧
    (after 0x200#16 0xF129 (withRegs [(1#4, 0xFF#8)] State.reset)).map (·.i) = some 0x4FB#16 := by decide

/-- S5. -/
theorem test_step_bcd :
    (after 0x200#16 0xF033 (withRegs [(0#4, 0xDF#8)] (State.reset.setI 0x300#16))).map
      (fun t => (t.loadBytes 0x2FF 5, t.i)) = some ([0#8, 2#8, 2#8, 3#8, 0#8], 0x300#16) := by decide

/-- V43-11: nothing written, the bytes in range neither. -/
theorem test_step_bcd_fault :
    (after 0x200#16 0xF233 (withRegs [(2#4, 255#8)] (State.reset.setI 0xFFE#16))).map
      (fun t => (faultNumbers t, t.byteAt 0xFFE, t.byteAt 0xFFF)) = some (some (3, 0x200, 0xFFE), 0#8, 0#8) := by decide

/-- P5: `store-regs V1`, the lower register at the lower address, `I` unchanged. -/
theorem test_step_store_regs :
    (after 0x206#16 0xF155 (withRegs [(0#4, 0x12#8), (1#4, 8#8), (2#4, 0x99#8)] (State.reset.setI 0x208#16))).map
      (fun t => (t.loadBytes 0x208 3, t.i)) = some ([0x12#8, 8#8, 0#8], 0x208#16) := by decide

/-- V43-13, V43-14: the last address that fits, and one too far. -/
theorem test_step_store_regs_bound :
    (after 0x200#16 0xF055 (withRegs [(0#4, 0x99#8)] (State.reset.setI 0xFFF#16))).map (·.byteAt 0xFFF) = some 0x99#8 ∧
    (after 0x200#16 0xFF55 (withRegs [(0#4, 0x99#8)] (State.reset.setI 0xFF1#16))).map
      (fun t => (faultNumbers t, t.byteAt 0xFF1)) = some (some (3, 0x200, 0xFF1), 0#8) := by decide

/-- V43-16, V43-17: the default font from address 0; the registers above `x` stay. -/
theorem test_step_load_regs :
    (after 0x200#16 0xF465 (withRegs [(5#4, 0x55#8)] State.reset)).map (fun t => (t.regsUpTo 5#4, t.i)) =
      some ([0xF0#8, 0x90#8, 0x90#8, 0x90#8, 0xF0#8, 0x55#8], 0#16) := by decide

/-- V43-15. -/
theorem test_step_load_regs_fault :
    (after 0x200#16 0xF065 (State.reset.setI 0x1000#16)).map (fun t => (faultNumbers t, t.pc)) =
      some (some (2, 0x200, 0x1000), 0x200#16) := by decide

/-- V44-12: `clear` leaves `VF`. -/
theorem test_step_clear :
    (after 0x200#16 0x00E0 (withRegs [(15#4, 5#8)] ((sprite [] 0#8 0#8).setFb (List.replicate 64 true)))).map
      (fun t => (t.fb.length, lit 0 t.fb, t.reg vf)) = some (64, [], 5#8) := by decide

/-- S7: the wrap at the right edge. -/
theorem test_step_draw_wrap :
    (after 0x200#16 0xD011 (sprite [0xC0#8] 63#8 0#8)).map (fun t => (lit 0 t.fb, t.reg vf)) =
      some ([0, 63], 0#8) := by decide

/-- V44-3: one pixel lit, one collided. -/
theorem test_step_draw_collision :
    (after 0x200#16 0xD011 ((sprite [0xC0#8] 0#8 0#8).setFb ((List.replicate 64 false).set 1 true))).map
      (fun t => (lit 0 t.fb, t.reg vf)) = some ([0], 1#8) := by decide

/-- V44-14, on a display of 4 by 1: the later pixels hit the cells the earlier ones lit. -/
theorem test_plotter_repeated_cells :
    drawBytes 4 1 0 0 [0xFF#8] (List.replicate 4 false) = (List.replicate 4 false, true) := by decide

/-- P3, step 4: the cells of the first draw's two rows, wrapping on both axes of the 64 by 32 display. -/
theorem test_plotter_both_axes :
    (List.range 8).map (pixelCell 64 32 62 31 0) = [2046, 2047, 1984, 1985, 1986, 1987, 1988, 1989] ∧
    (List.range 8).map (pixelCell 64 32 62 31 1) = [62, 63, 0, 1, 2, 3, 4, 5] := by decide

/-- V45-1, V45-2. -/
theorem test_step_skip_key :
    (after 0x208#16 0xE09E (withRegs [(0#4, 4#8)] (State.reset.setKeyBit 4#4 true))).map (·.pc) = some 0x20C#16 ∧
    (after 0x208#16 0xE09E (withRegs [(0#4, 4#8)] State.reset)).map (·.pc) = some 0x20A#16 := by decide

/-- V45-4. -/
theorem test_step_skip_key_fault :
    (after 0x208#16 0xE09E (withRegs [(0#4, 0x10#8)] State.reset)).map (fun t => (faultNumbers t, t.pc)) =
      some (some (6, 0x208, 0x10), 0x208#16) := by decide

/-- V45-3, V45-5: not masked to key 4. -/
theorem test_step_skip_nokey :
    (after 0x208#16 0xE0A1 (withRegs [(0#4, 4#8)] State.reset)).map (·.pc) = some 0x20C#16 ∧
    (after 0x208#16 0xE0A1 (withRegs [(0#4, 0x14#8)] State.reset)).map faultNumbers = some (some (6, 0x208, 0x14)) := by decide

/-- S13: the lowest pressed key. -/
theorem test_step_wait_key :
    (after 0x204#16 0xF00A ((State.reset.setKeyBit 9#4 true).setKeyBit 4#4 true)).map (fun t => (t.reg 0#4, t.pc)) =
      some (4#8, 0x206#16) := by decide

/-- V45-6: the stall leaves the state identical. -/
theorem test_step_wait_key_stall :
    after 0x204#16 0xF00A (sprite [] 0#8 0#8) = some (placed 0x204#16 0xF00A (sprite [] 0#8 0#8)) := by decide

/-- V45-9. -/
theorem test_step_load_delay :
    (after 0x200#16 0xF107 (State.reset.setDt 0x2A#8)).map (fun t => (t.reg 1#4, t.dt)) = some (0x2A#8, 0x2A#8) := by decide

/-- V45-10. -/
theorem test_step_set_delay :
    (after 0x200#16 0xFA15 (withRegs [(10#4, 3#8)] State.reset)).map (fun t => (t.dt, t.st)) = some (3#8, 0#8) := by decide

/-- V45-11. -/
theorem test_step_set_sound :
    (after 0x200#16 0xF518 (withRegs [(5#4, 0x10#8)] State.reset)).map (fun t => (t.st, t.dt)) = some (0x10#8, 0#8) := by decide

/-- V40-3, V70-5: a word of zeros only advances `PC`. -/
theorem test_step_unknown : step State.reset = .next { State.reset with pc := 0x202#16 } := by rfl

/-- V40-2: an odd `PC` fetches like any other. -/
theorem test_step_odd_pc :
    (after 0x201#16 0xA123 State.reset).map (fun t => (t.i, t.pc)) = some (0x123#16, 0x203#16) := by decide

/-- V40-5, V40-6: the last fetch that is possible, and `PC = 0xFFF`. -/
theorem test_step_fetch_bound :
    (after 0xFFE#16 0x6007 State.reset).map (fun t => (t.reg 0#4, t.pc)) = some (7#8, 0x1000#16) ∧
    step { State.reset with pc := 0xFFF#16 } =
      .next { State.reset with pc := 0xFFF#16, fault := some ⟨.fetchOutOfBounds, 0xFFF#16, 0xFFF#16⟩ } := ⟨by decide, rfl⟩

/-! ### Host commands -/

/-- V45-12, V45-13. -/
theorem test_tick_timers :
    (afterCommands [.tickTimers] ((State.reset.setDt 1#8).setSt 255#8)).map (fun t => (t.dt, t.st)) =
      some (0#8, 254#8) ∧
    (afterCommands [.tickTimers] State.reset).map (fun t => (t.dt, t.st)) = some (0#8, 0#8) := by decide

/-- V45-15, and an index that is refused. -/
theorem test_key_commands :
    (afterCommands [.setKey 7, .setKey 7, .unsetKey 3, .setKey 16] State.reset).map (·.keys) =
      some (State.reset.keys.set 7 true) := by decide

/-- V70-4: the font is restored, the image loaded, nothing else changed. -/
theorem test_load_program :
    (afterCommands [.loadProgram [0x12#8, 0x00#8]]
      ({ withRegs [(3#4, 9#8)] (State.reset.storeByte 0 0x55#8) with pc := 0x246#16 })).map
      (fun t => (t.byteAt 0, t.wordAt 0x200, t.pc, t.reg 3#4)) = some (0xF0#8, 0x1200#16, 0x246#16, 9#8) := by decide

/-- V45-16: a Faulted machine ignores the host. -/
theorem test_faulted_ignores :
    afterCommands [.tickTimers, .setKey 1, .step 0#8, .loadProgram [1#8]]
      (((sprite [] 0#8 0#8).setDt 9#8).enterFault 0x200#16 .stackUnderflow 0#16) =
      some (((sprite [] 0#8 0#8).setDt 9#8).enterFault 0x200#16 .stackUnderflow 0#16) := by decide

/-- V70-1: `reset` clears a fault and every field. -/
theorem test_reset_command :
    command .reset ((withRegs [(3#4, 4#8)] (State.reset.storeByte 0 7#8)).enterFault 0x300#16 .stackOverflow 15#16) =
      .next State.reset := by rfl

/-- Placing a word on a Faulted machine whose `PC` has no two bytes: the fault goes, `PC` moves to 0x200 (log entry 16). -/
theorem test_with_fetch_word :
    (step ((({ State.reset with pc := 0xFFF#16 }).enterFault 0xFFF#16 .fetchOutOfBounds 0xFFF#16).withFetchWord 16 0x6007)) =
      .next ((({ State.reset with pc := 0x202#16 }).storeBytes 0x200 [0x60#8, 7#8]).setReg 0#4 7#8) := by rfl

/-! ### Witnesses: the hypotheses of each statement, met by concrete states and operands at the edges of their ranges -/

/-- A state in the middle of a run: a small display, one call outstanding, memory and registers written, a key down. -/
def busy : State :=
  { ((withRegs [(0#4, 0x12#8), (1#4, 0x08#8), (15#4, 1#8)] ((State.resetWith ⟨8, 3, defaultFont⟩).setI 0xFFD#16)).storeBytes
      0xFFD [0x81#8, 0xFF#8, 0x18#8]).setKeyBit 15#4 true with
    sp := 1#8, stack := State.reset.stack.set 1 0x206#16, pc := 0x20A#16, dt := 3#8 }

/-- A Faulted state. -/
def faulted : State := busy.enterFault 0x20A#16 .keyIndexOutOfRange 0x10#16

theorem busy_wf : Memory.wf busy.config.font busy.memory := by decide

theorem busy_inv : busy.Inv :=
  { config_wf := by decide, fb_length := by decide, memory_wf := busy_wf, sp_le := by decide, pc_le := by decide
    stack_range := by decide, fault_pc := fun _ h => nomatch h }

theorem witness_EncodeDecodeReturnsWord : decodeWord 0x83A6#16 = .instr (.shr 3#4 10#4) := by decide

theorem witness_DecoderFollowsOpcodeMap :
    decodeWord 0x8125#16 = .instr (.sub 1#4 2#4) ∧
    ⟨.sub, 0xF00F#16, 0x8005#16⟩ ∈ opcodeTable ∧ (⟨.sub, 0xF00F#16, 0x8005#16⟩ : Row).selects 0x8125#16 = true := by decide

/-- Both branches, at the neighbours of the recognized words. -/
theorem witness_UnrecognizedWordsAreExactlyListed :
    ([0x0000, 0x00DF, 0x00E1, 0x00ED, 0x00EF, 0x0FFF, 0x5001, 0x500F, 0x8008, 0x800D, 0x800F, 0x9001, 0xE09D, 0xE09F,
      0xE0A0, 0xE0A2, 0xF006, 0xF008, 0xF064, 0xF066, 0xFFFF].all unrecognized = true) ∧
    ([0x00E0, 0x00EE, 0x1000, 0x4FFF, 0x5000, 0x6000, 0x8007, 0x800E, 0x9FF0, 0xA000, 0xDFFF, 0xE09E, 0xE0A1, 0xF007,
      0xFF65].all (fun w => !unrecognized w) = true) := by decide

theorem witness_StepFetchesAdvancesAndRuns :
    faulted.fault ≠ none ∧
    (busy.fault = none ∧ 0xFFE < ({ busy with pc := 0xFFF#16 }).pc.toNat) ∧
    ((placed 0xFFE#16 0x6007 busy).fault = none ∧ (placed 0xFFE#16 0x6007 busy).pc.toNat ≤ 0xFFE ∧
      decodeWord (placed 0xFFE#16 0x6007 busy).fetchWord = .instr (.loadImm 0#4 7#8)) ∧
    ((placed 0xFFE#16 0x5121 busy).fault = none ∧ (placed 0xFFE#16 0x5121 busy).pc.toNat ≤ 0xFFE ∧
      decodeWord (placed 0xFFE#16 0x5121 busy).fetchWord = .unknown 0x5121#16) ∧
    (∀ x kk, Instr.loadImm 0#4 7#8 ≠ .rand x kk) := by
  refine ⟨by decide, by decide, by decide, by decide, fun _ _ e => nomatch e⟩

theorem witness_UnknownWordOnlyAdvancesPc :
    let s := placed 0xFFE#16 0x5121 busy
    s.fault = none ∧ s.pc.toNat ≤ 0xFFE ∧
      unrecognized ((s.byteAt s.pc.toNat).toNat * 256 + (s.byteAt (s.pc.toNat + 1)).toNat) = true := by decide

theorem witness_StepCompletesOrKeepsNothing :
    let s := { placed 0x250#16 0x2300 busy with sp := 15#8 }
    s.fault = none ∧ s.sp.toNat ≤ 15 := by decide

theorem witness_RandomByteReachesOnlyRand (x : Reg) (kk : Byte) : decodeWord State.reset.fetchWord ≠ .instr (.rand x kk) := by
  have h : decodeWord State.reset.fetchWord = .unknown 0#16 := by decide
  rw [h]
  exact fun e => nomatch e

theorem witness_CoreStepDrawsOneFreeByte :
    decodeWord (placed 0x200#16 0xC40F busy).fetchWord = .instr (.rand 4#4 0x0F#8) ∧ ∃ t, step busy = .next t :=
  ⟨by decide, ⟨_, rfl⟩⟩

theorem witness_FinishedRunIsFixedPoint :
    (placed 0x20C#16 0x120C busy).fault = none ∧ (placed 0x20C#16 0x120C busy).finished = true ∧
    (placed 0xFFE#16 0x1FFE busy).finished = true ∧ busy.finished = false := by decide

theorem witness_PlacedWordRunsNext :
    Memory.wf busy.config.font busy.memory ∧ decodeWord 0xD015#16 = .instr (.draw 0#4 1#4 5#4) := ⟨busy_wf, by decide⟩

/-- P5's store, and the last two bytes of memory. -/
theorem witness_StoredInstructionIsFetchedNext :
    (let s := { busy.setI 0x208#16 with pc := 0x208#16 }
     Memory.wf s.config.font s.memory ∧ s.i.toNat + (1#4 : Reg).toNat ≤ 0xFFF ∧ 0 + 1 ≤ (1#4 : Reg).toNat ∧
       s.pc.toNat = s.i.toNat + 0) ∧
    (let s := { busy.setI 0xFF0#16 with pc := 0xFFE#16 }
     Memory.wf s.config.font s.memory ∧ s.i.toNat + (15#4 : Reg).toNat ≤ 0xFFF ∧ 14 + 1 ≤ (15#4 : Reg).toNat ∧
       s.pc.toNat = s.i.toNat + 14) := by decide

/-- Every row of the table of rule R201 just over its bound, and the same instruction at its bound raising nothing. -/
theorem witness_FaultsAreExactlyTheTable :
    (faultOf (.draw 0#4 1#4 1#4) (busy.setI 0x1000#16) = some (.memReadOutOfBounds, 0x1000#16) ∧
      faultOf (.draw 0#4 1#4 1#4) (busy.setI 0xFFF#16) = none ∧ faultOf (.draw 0#4 1#4 0#4) (busy.setI 0x1000#16) = none ∧
      faultOf (.draw 0#4 1#4 0#4) (busy.setI 0x1001#16) = some (.memReadOutOfBounds, 0x1001#16)) ∧
    (faultOf (.loadRegs 15#4) (busy.setI 0xFF1#16) = some (.memReadOutOfBounds, 0xFF1#16) ∧
      faultOf (.loadRegs 15#4) (busy.setI 0xFF0#16) = none) ∧
    (faultOf (.bcd 0#4) (busy.setI 0xFFE#16) = some (.memWriteOutOfBounds, 0xFFE#16) ∧
      faultOf (.bcd 0#4) (busy.setI 0xFFD#16) = none) ∧
    (faultOf (.storeRegs 0#4) (busy.setI 0x1000#16) = some (.memWriteOutOfBounds, 0x1000#16) ∧
      faultOf (.storeRegs 0#4) (busy.setI 0xFFF#16) = none) ∧
    (faultOf (.call 0x300#12) { busy with sp := 15#8 } = some (.stackOverflow, 15#16) ∧
      faultOf (.call 0x300#12) { busy with sp := 14#8 } = none) ∧
    (faultOf .ret State.reset = some (.stackUnderflow, 0#16) ∧ faultOf .ret busy = none) ∧
    (faultOf (.skipKey 0#4) (busy.setReg 0#4 16#8) = some (.keyIndexOutOfRange, 16#16) ∧
      faultOf (.skipNokey 0#4) (busy.setReg 0#4 15#8) = none) ∧
    (busy.fault = none ∧ 0xFFE < ({ busy with pc := 0xFFF#16 }).pc.toNat) ∧ ∃ t, exec .ret busy = .next t := by
  refine ⟨by decide, by decide, by decide, by decide, by decide, by decide, by decide, by decide, ⟨_, rfl⟩⟩

theorem witness_FaultedIgnoresAllButReset : faulted.fault ≠ none ∧ Command.step 7#8 ≠ .reset := by decide

theorem witness_FieldsWrittenOnlyByTheirInstructions :
    (∃ t, exec (.storeRegs 2#4) busy = .next t) ∧ (∃ t, exec (.call 0x300#12) busy = .next t) ∧
    (∃ t, exec (.draw 0#4 1#4 3#4) busy = .next t) ∧ (∃ t, exec (.setDelay 1#4) busy = .next t) ∧
    mayWriteReg (.loadRegs 14#4) vf = false ∧ mayWriteReg (.add 1#4 2#4) 2#4 = false :=
  ⟨⟨_, rfl⟩, ⟨_, rfl⟩, ⟨_, rfl⟩, ⟨_, rfl⟩, by decide, by decide⟩

theorem witness_FlagWrittenOnlyAsListed :
    (∃ t, exec (.add 1#4 15#4) busy = .next t) ∧ (∃ t, exec (.shl 15#4 0#4) busy = .next t) ∧ (1#4 : Reg) ≠ vf ∧
    ∃ t, exec (.draw 0#4 1#4 3#4) busy = .next t := ⟨⟨_, rfl⟩, ⟨_, rfl⟩, by decide, ⟨_, rfl⟩⟩

theorem witness_ResetMeetsInvariant : (⟨1, 1, defaultFont⟩ : Config).wf ∧ defaultConfig.wf := by decide

theorem witness_StepKeepsInvariant : busy.Inv ∧ ∃ t, step busy = .next t := ⟨busy_inv, ⟨_, rfl⟩⟩

/-- A Faulted state meets the invariant too. -/
theorem witness_CommandsKeepInvariant : busy.Inv ∧ faulted.Inv :=
  ⟨busy_inv, { busy_inv with fault_pc := fun _ h => by cases h; rfl }⟩

theorem witness_SchedulesRunAndKeepInvariant : (⟨1, 1, defaultFont⟩ : Config).wf ∧ busy.config.wf := by decide

theorem witness_CallPushesReturnAddress :
    ({ busy with sp := 14#8 }).sp.toNat < 15 ∧ 15 ≤ ({ busy with sp := 15#8 }).sp.toNat := by decide

theorem witness_ReturnPopsReturnAddress :
    (1 ≤ (1 : Fin 16).val ∧ busy.sp.toNat = (1 : Fin 16).val) ∧
    (1 ≤ (15 : Fin 16).val ∧ ({ busy with sp := 15#8 }).sp.toNat = (15 : Fin 16).val) ∧ State.reset.sp.toNat = 0 := by decide

theorem witness_ReturnBeyondStackStops : 15 < ({ busy with sp := 16#8 }).sp.toNat := by decide

theorem witness_CallThenReturnComesBack :
    ({ busy with sp := 14#8 }).sp.toNat < 15 ∧ State.reset.sp.toNat < 15 ∧ (3 : Fin 16).val ≠ busy.sp.toNat + 1 := by decide

/-- A `rand` at the last address that can be fetched. -/
theorem witness_RandMasksTheRandomByte :
    let s := placed 0xFFE#16 0xC40F busy
    s.fault = none ∧ s.pc.toNat ≤ 0xFFE ∧
      (s.byteAt s.pc.toNat).toNat * 256 + (s.byteAt (s.pc.toNat + 1)).toNat =
        0xC000 + 256 * (4#4 : Reg).toNat + (0x0F#8 : Byte).toNat := by decide

theorem witness_register_frames :
    (1#4 : Reg) ≠ vf ∧ (15#4 : Reg) = vf ∧ (2#4 : Reg) ≠ 1#4 ∧ (2#4 : Reg) ≠ vf := by decide

theorem witness_BcdStoresThreeDigits :
    (Memory.wf busy.config.font busy.memory ∧ busy.base + 2 ≤ 0xFFF) ∧ 0xFFF < (busy.setI 0xFFE#16).base + 2 :=
  ⟨⟨busy_wf, by decide⟩, by decide⟩

theorem witness_StoreRegsCopiesRangeToMemory :
    (Memory.wf busy.config.font busy.memory ∧ (busy.setI 0xFF0#16).base + (15#4 : Reg).toNat ≤ 0xFFF) ∧
    0xFFF < (busy.setI 0xFF1#16).base + (15#4 : Reg).toNat := ⟨⟨busy_wf, by decide⟩, by decide⟩

theorem witness_LoadRegsCopiesRangeFromMemory :
    (busy.setI 0xFFF#16).base + (0#4 : Reg).toNat ≤ 0xFFF ∧ 0xFFF < (busy.setI 0x1000#16).base + (0#4 : Reg).toNat := by decide

/-- The second state has the stored bytes and other registers. -/
theorem witness_StoreThenLoadRestoresRegisters :
    Memory.wf busy.config.font busy.memory ∧ busy.base + (2#4 : Reg).toNat ≤ 0xFFF ∧
    ∃ t, exec (.storeRegs 2#4) busy = .next t ∧ ∃ u : State, u.i = t.i ∧ u.reg 0#4 ≠ t.reg 0#4 ∧
      ∀ k : Reg, k.toNat ≤ (2#4 : Reg).toNat → u.byteAt (t.base + k.toNat) = t.byteAt (t.base + k.toNat) :=
  ⟨busy_wf, by decide, _, rfl, (busy.storeBytes busy.base (busy.regsUpTo 2#4)).setReg 0#4 0#8, rfl, by decide, fun _ _ => rfl⟩

theorem witness_ClearTurnsEveryCellOff : 23 < busy.config.width * busy.config.height := by decide

theorem witness_DrawPlotsSpriteAndSetsFlag :
    busy.base + (3#4 : Nibble).toNat ≤ 0x1000 ∧ 0x1000 < busy.base + (4#4 : Nibble).toNat ∧
    (busy.setI 0x1000#16).base + (0#4 : Nibble).toNat ≤ 0x1000 ∧
    0x1000 < (busy.setI 0x1001#16).base + (0#4 : Nibble).toNat := by decide

theorem witness_SpriteIsXorOfMask :
    8 ≤ 8 ∧ 1 ≤ 2 ∧ [0xFF#8, 0x81#8].length ≤ 2 ∧ (List.replicate 16 true).length = 8 * 2 := by decide

theorem witness_DoubleDrawRestoresDisplay :
    (0#4 : Reg) ≠ vf ∧ (1#4 : Reg) ≠ vf ∧ 8 ≤ busy.config.width ∧ 1 ≤ busy.config.height ∧
    (3#4 : Nibble).toNat ≤ busy.config.height ∧ busy.fb.length = busy.config.width * busy.config.height ∧
    busy.base + (3#4 : Nibble).toNat ≤ 0x1000 := by decide

theorem witness_KeySkipsTestNumberedKey :
    ((busy.setReg 0#4 15#8).reg 0#4).toNat = (15#4 : Reg).toNat ∧ 15 < ((busy.setReg 0#4 16#8).reg 0#4).toNat := by decide

theorem witness_WaitKeyStallsOrTakesLowestKey :
    (let s := placed 0xFFE#16 0xF00A State.reset
     (∀ k, s.key k = false) ∧ s.fault = none ∧ s.pc.toNat ≤ 0xFFE ∧ decodeWord s.fetchWord = .instr (.waitKey 0#4)) ∧
    (busy.key 15#4 = true ∧ ∀ j : Reg, j.toNat < (15#4 : Reg).toNat → busy.key j = false) := by decide

theorem witness_PowerOnIsStateAfterReset :
    (State.reset.enterFault 0x200#16 .stackUnderflow 0#16).config = State.reset.config := rfl

/-- An image of exactly the length that fits, and one byte more. -/
theorem witness_LoadProgramWritesImageAndFont :
    busy.fault = none ∧ Memory.wf busy.config.font busy.memory ∧ (List.replicate 3584 1#8).length ≤ 3584 ∧
    3584 < (List.replicate 3585 1#8).length ∧ faulted.fault ≠ none :=
  ⟨rfl, busy_wf, List.length_replicate.le, Nat.lt_of_lt_of_eq (by decide) List.length_replicate.symm, by decide⟩

theorem witness_TicksLowerTimersToZero : busy.fault = none ∧ faulted.fault ≠ none := by decide

theorem witness_KeyCommandsSetOneBit :
    (busy.fault = none ∧ 15 = (15#4 : Reg).toNat) ∧ 15 < 16 ∧ faulted.fault ≠ none := by decide

end Sys2Proof.Tests
end

section
/-! SUPPORT. PROOFS of the statements about the step (spec 40_step_and_decode.md rules R90 to R98), with the lemmas they rest
on: what an instruction does with the fault table in hand, who sees the random byte, and the words no row selects. -/

namespace Sys2Proof.Machine

/-! ### The bounds check as the fault table writes it -/

theorem outOfBounds_three_iff (s : State) : s.outOfBounds 3 = true ↔ 0xFFF < s.i.toNat + 2 := by
  rw [outOfBounds_iff]; omega

theorem outOfBounds_regCount_iff (s : State) (x : Reg) :
    s.outOfBounds (regCount x) = true ↔ 0xFFF < s.i.toNat + x.toNat := by
  rw [outOfBounds_iff, regCount]; omega

theorem sp_eq_zero_iff (s : State) : s.sp = 0#8 ↔ s.sp.toNat = 0 := by
  rw [← BitVec.toNat_inj]; rfl

/-! ### What an instruction does to the fault record -/

@[simp] theorem State.storeBytes_fault (s : State) (a : Nat) (bs : List Byte) : (s.storeBytes a bs).fault = s.fault := by
  rw [State.storeBytes_eq]

@[simp] theorem State.setRegs_fault (s : State) (k : Nat) (bs : List Byte) : (s.setRegs k bs).fault = s.fault := by
  rw [State.setRegs_eq]

@[simp] theorem skipIf_fault (c : Bool) (s : State) : (skipIf c s).fault = s.fault := by
  rw [skipIf_eq]

@[simp] theorem aluWriteThenFlag_fault (op : AluOp) (x : Reg) (a b : Byte) (s : State) :
    (aluWriteThenFlag op x a b s).fault = s.fault := by
  rw [aluWriteThenFlag_eq]

@[simp] theorem aluFlagThenWrite_fault (op : AluOp) (x : Reg) (s : State) : (aluFlagThenWrite op x s).fault = s.fault := by
  rw [aluFlagThenWrite_eq]

/-- An instruction for which the table of rule R201 names a fault ends in the state of rule R202, whatever the random byte:
the test each meaning makes first is the table's condition. -/
theorem execWith_of_faultOf_some {rb : Byte} {i : Instr} {s : State} {c : FaultCause} {w : Word}
    (h : faultOf i s = some (c, w)) : execWith rb i s = .next (FaultedState c w s) := by
  cases i with
  | draw x y n =>
    obtain ⟨hb, rfl, rfl⟩ : 0x1000 < s.i.toNat + n.toNat ∧ _ = c ∧ _ = w := by simpa [faultOf] using h
    exact if_pos ((outOfBounds_iff s _).mpr hb)
  | loadRegs x =>
    obtain ⟨hb, rfl, rfl⟩ : 0xFFF < s.i.toNat + x.toNat ∧ _ = c ∧ _ = w := by simpa [faultOf] using h
    exact if_pos ((outOfBounds_regCount_iff s x).mpr hb)
  | bcd x =>
    obtain ⟨hb, rfl, rfl⟩ : 0xFFF < s.i.toNat + 2 ∧ _ = c ∧ _ = w := by simpa [faultOf] using h
    exact if_pos ((outOfBounds_three_iff s).mpr hb)
  | storeRegs x =>
    obtain ⟨hb, rfl, rfl⟩ : 0xFFF < s.i.toNat + x.toNat ∧ _ = c ∧ _ = w := by simpa [faultOf] using h
    exact if_pos ((outOfBounds_regCount_iff s x).mpr hb)
  | call nnn =>
    obtain ⟨hsp, rfl, rfl⟩ : 15 ≤ s.sp.toNat ∧ _ = c ∧ _ = w := by simpa [faultOf] using h
    exact dif_neg (Nat.not_lt.mpr hsp)
  | ret =>
    obtain ⟨hsp, rfl, rfl⟩ : s.sp.toNat = 0 ∧ _ = c ∧ _ = w := by simpa [faultOf] using h
    exact if_pos ((sp_eq_zero_iff s).mpr hsp)
  | skipKey x | skipNokey x =>
    obtain ⟨hk, rfl, rfl⟩ : 15 < (s.reg x).toNat ∧ _ = c ∧ _ = w := by simpa [faultOf] using h
    simp only [execWith, exec, execSkipKey, execSkipNokey, keyNumber_none hk]
    rfl
  | _ => cases h

/-- An instruction for which the table of rule R201 names no fault completes and leaves the fault record alone, whatever the
random byte. `return` alone needs an `SP` that names a slot (log entry 4). -/
theorem execWith_of_faultOf_none {rb : Byte} {i : Instr} {s : State} (hi : i = .ret → s.sp.toNat ≤ 15)
    (h : faultOf i s = none) : ∃ t, execWith rb i s = .next t ∧ t.fault = s.fault := by
  cases i with
  | draw x y n =>
    have hb : ¬0x1000 < s.i.toNat + n.toNat := by simpa [faultOf] using h
    exact ⟨_, if_neg (mt (outOfBounds_iff s _).mp hb), rfl⟩
  | loadRegs x =>
    have hb : ¬0xFFF < s.i.toNat + x.toNat := by simpa [faultOf] using h
    exact ⟨_, if_neg (mt (outOfBounds_regCount_iff s x).mp hb), State.setRegs_fault _ _ _⟩
  | bcd x =>
    have hb : ¬0xFFF < s.i.toNat + 2 := by simpa [faultOf] using h
    exact ⟨_, if_neg (mt (outOfBounds_three_iff s).mp hb), State.storeBytes_fault _ _ _⟩
  | storeRegs x =>
    have hb : ¬0xFFF < s.i.toNat + x.toNat := by simpa [faultOf] using h
    exact ⟨_, if_neg (mt (outOfBounds_regCount_iff s x).mp hb), State.storeBytes_fault _ _ _⟩
  | call nnn =>
    have hsp : s.sp.toNat < 15 := by simpa [faultOf] using h
    exact ⟨_, dif_pos hsp, rfl⟩
  | ret =>
    have hsp : ¬s.sp.toNat = 0 := by simpa [faultOf] using h
    have hslot : s.sp.toNat < 16 := Nat.lt_succ_of_le (hi rfl)
    exact ⟨_, (if_neg (mt (sp_eq_zero_iff s).mp hsp)).trans (dif_pos hslot), rfl⟩
  | skipKey x | skipNokey x =>
    have hk : (s.reg x).toNat ≤ 15 := by simpa [faultOf] using h
    simp only [execWith, exec, execSkipKey, execSkipNokey, keyNumber_some hk]
    exact ⟨_, rfl, skipIf_fault _ _⟩
  | waitKey x =>
    simp only [execWith, exec, execWaitKey]
    cases s.firstPressed with
    | none => exact ⟨_, rfl, rfl⟩
    | some k => exact ⟨_, rfl, rfl⟩
  | skipEqImm x kk | skipNeImm x kk | skipEqReg x y | skipNeReg x y => exact ⟨_, rfl, skipIf_fault _ _⟩
  | add x y | sub x y | subn x y => exact ⟨_, rfl, aluWriteThenFlag_fault _ _ _ _ _⟩
  | shr x y | shl x y => exact ⟨_, rfl, aluFlagThenWrite_fault _ _ _⟩
  | _ => exact ⟨_, rfl, rfl⟩

/-- A fault of an instruction puts `PC` back to the address the step began at, and keeps nothing else (rule R202). -/
theorem faultedState_advance (c : FaultCause) (w : Word) (s : State) :
    FaultedState c w s.advance = { s with fault := some ⟨c, s.pc, w⟩ } := by
  simp [FaultedState, State.advance, State.setPc]

/-- Settles O8: of the four ways a step can go, an instruction's is decided by the fault table of rule R201. -/
theorem stepCompletesOrKeepsNothing : Obligations.StepCompletesOrKeepsNothing := by
  intro s rb hf hsp
  obtain ⟨hf', -⟩ | ⟨-, -, hc⟩ | ⟨-, -, i, -, hc⟩ | ⟨-, -, w, -, hc⟩ := cycle_cases (execWith rb) s
  · exact absurd hf hf'
  · exact ⟨_, hc, .inr ⟨_, _, rfl⟩⟩
  · cases ht : faultOf i s.advance with
    | none =>
      obtain ⟨t, he, hft⟩ := execWith_of_faultOf_none (rb := rb) (s := s.advance) (fun _ => hsp) ht
      exact ⟨t, hc.trans he, .inl (hft.trans hf)⟩
    | some f =>
      have he := hc.trans (execWith_of_faultOf_some ht)
      rw [faultedState_advance] at he
      exact ⟨_, he, .inr ⟨_, _, rfl⟩⟩
  · exact ⟨_, hc, .inl hf⟩

/-! ### Who sees the random byte -/

theorem execWith_of_ne_rand (rb : Byte) {i : Instr} (s : State) (h : ∀ x kk, i ≠ .rand x kk) :
    execWith rb i s = exec i s := by
  cases i with
  | rand x kk => exact absurd rfl (h x kk)
  | _ => rfl

/-- A step depends on the meaning of the fetched instruction only. -/
theorem cycle_congr {run run' : Instr → State → Result} {s : State}
    (h : ∀ i, decodeWord s.fetchWord = .instr i → run i s.advance = run' i s.advance) : cycle run s = cycle run' s := by
  have hfetch : fetchAndRun run s = fetchAndRun run' s := by
    unfold fetchAndRun
    cases hd : decodeWord s.fetchWord with
    | instr i => exact h i hd
    | unknown w => rfl
  simp only [cycle, hfetch]

/-- Settles O9: on every instruction but `rand` both bytes run the meaning that takes none. -/
theorem randomByteReachesOnlyRand : Obligations.RandomByteReachesOnlyRand := by
  intro s a b hrand
  refine cycle_congr fun i hi => ?_
  have hne : ∀ x kk, i ≠ .rand x kk := fun x kk e => hrand x kk (e ▸ hi)
  rw [execWith_of_ne_rand a _ hne, execWith_of_ne_rand b _ hne]

/-! ### The step as a whole -/

/-- The fetched word, written from its two bytes (rules R52, R91). -/
theorem fetchWord_eq_ofNat (s : State) :
    s.fetchWord = BitVec.ofNat 16 ((s.byteAt s.pc.toNat).toNat * 256 + (s.byteAt (s.pc.toNat + 1)).toNat) := by
  rw [← fetchWord_toNat, BitVec.ofNat_toNat, BitVec.setWidth_eq]

/-- Settles O6: each clause is one of the four ways a step can go, for the core's step and for the command alike. -/
theorem stepFetchesAdvancesAndRuns : Obligations.StepFetchesAdvancesAndRuns := by
  intro s rb
  rw [← fetchWord_eq_ofNat]
  refine ⟨rfl, ?faulted, ?fetchFault, ?instr, ?unknown, fun i h => execWith_of_ne_rand rb s h⟩
  case faulted => exact fun hf => ⟨cycle_of_faulted hf, cycle_of_faulted hf⟩
  case fetchFault => exact fun hf hp => ⟨cycle_of_fetchFault hf hp, cycle_of_fetchFault hf hp⟩
  case instr => exact fun i hf hp hd => ⟨cycle_of_instr hf hp hd, cycle_of_instr hf hp hd⟩
  case unknown => exact fun w hf hp hd => ⟨cycle_of_unknown hf hp hd, cycle_of_unknown hf hp hd⟩

/-! ### Unrecognized words -/

theorem decode0_of_unlisted {w : Word} (h : (w.toNat != 0x00E0 && w.toNat != 0x00EE) = true) :
    decode0 w = .unknown w := by
  obtain ⟨hclear, hret⟩ : w.toNat ≠ 0x00E0 ∧ w.toNat ≠ 0x00EE := by simpa using h
  rw [decode0, if_neg fun e => hclear (congrArg BitVec.toNat e), if_neg fun e => hret (congrArg BitVec.toNat e)]

theorem fieldN_ne_zero {w : Word} (h : (w.toNat % 0x10 != 0) = true) : fieldN w ≠ 0#4 := by
  intro e
  have h0 : w.toNat % 16 = 0 := by rw [← fieldN_toNat, e]; rfl
  simp [h0] at h

theorem decode8_of_unlisted {w : Word} (h : [0x8, 0x9, 0xA, 0xB, 0xC, 0xD, 0xF].contains (w.toNat % 0x10) = true) :
    decode8 w = .unknown w := by
  rw [decode8, fieldN_toNat]
  split <;> simp_all

theorem decodeE_of_unlisted {w : Word} (h : (!([0x9E, 0xA1].contains (w.toNat % 0x100))) = true) :
    decodeE w = .unknown w := by
  rw [decodeE, fieldKK_toNat]
  split <;> simp_all

theorem decodeF_of_unlisted {w : Word}
    (h : (!([0x07, 0x0A, 0x15, 0x18, 0x1E, 0x29, 0x33, 0x55, 0x65].contains (w.toNat % 0x100))) = true) :
    decodeF w = .unknown w := by
  rw [decodeF, fieldKK_toNat]
  split <;> simp_all

/-- The words of rule R75's list decode to no instruction: the decoder dispatches on the same `nibble1` as the list. -/
theorem decodeWord_of_unrecognized {w : Word} (h : unrecognized w.toNat = true) : decodeWord w = .unknown w := by
  unfold unrecognized at h
  split at h
  next hop => simp only [decodeWord, fieldOp_toNat, hop, decode0_of_unlisted h]
  next hop => simp only [decodeWord, fieldOp_toNat, hop, if_neg (fieldN_ne_zero h)]
  next hop => simp only [decodeWord, fieldOp_toNat, hop, if_neg (fieldN_ne_zero h)]
  next hop => simp only [decodeWord, fieldOp_toNat, hop, decode8_of_unlisted h]
  next hop => simp only [decodeWord, fieldOp_toNat, hop, decodeE_of_unlisted h]
  next hop => simp only [decodeWord, fieldOp_toNat, hop, decodeF_of_unlisted h]
  next => exact absurd h (by decide)

/-- Settles O7: the word decodes to no instruction, so the step is the advance of `PC` and nothing more. -/
theorem unknownWordOnlyAdvancesPc : Obligations.UnknownWordOnlyAdvancesPc := by
  intro s rb hf hp hu
  rw [← fetchWord_toNat] at hu
  have hd := decodeWord_of_unrecognized hu
  have hpc : s.advance.pc.toNat = s.pc.toNat + 2 := by
    have htwo : (2#16 : Word).toNat = 2 := rfl
    rw [State.advance_pc, BitVec.toNat_add, htwo, Nat.mod_eq_of_lt (by omega)]
  exact ⟨s.advance, cycle_of_unknown hf hp hd, cycle_of_unknown hf hp hd, hpc, rfl,
    State.byteAt_congr s.advance_config s.advance_memory⟩

end Sys2Proof.Machine
end

section
/-! SUPPORT. PROOFS of the statements about control transfer (spec 41_control_flow.md rules R100 to R109), with the lemmas they
rest on: a word decodes to the instruction it encodes, one lemma per format, and what jumps, calls, returns and skips leave. -/

namespace Sys2Proof

/-! ### Fields read back from a word's number -/

theorem fieldOp_of_toNat {w : Word} {p r : Nat} (hr : r < 4096) (h : w.toNat = 4096 * p + r) : (fieldOp w).toNat = p := by
  rw [fieldOp_toNat]; omega

theorem fieldNNN_of_toNat {w : Word} {p : Nat} {nnn : Imm12} (h : w.toNat = 4096 * p + nnn.toNat) : fieldNNN w = nnn := by
  have := nnn.isLt
  apply BitVec.eq_of_toNat_eq
  rw [fieldNNN_toNat]; omega

theorem fieldX_of_toNat {w : Word} {p r : Nat} {x : Reg} (hr : r < 256) (h : w.toNat = 4096 * p + 256 * x.toNat + r) :
    fieldX w = x := by
  have := x.isLt
  apply BitVec.eq_of_toNat_eq
  rw [fieldX_toNat]; omega

theorem fieldKK_of_toNat {w : Word} {r : Nat} {kk : Byte} (h : w.toNat = 256 * r + kk.toNat) : fieldKK w = kk := by
  have := kk.isLt
  apply BitVec.eq_of_toNat_eq
  rw [fieldKK_toNat]; omega

theorem fieldY_of_toNat {w : Word} {r q : Nat} {y : Reg} (hq : q < 16) (h : w.toNat = 256 * r + 16 * y.toNat + q) :
    fieldY w = y := by
  have := y.isLt
  apply BitVec.eq_of_toNat_eq
  rw [fieldY_toNat]; omega

theorem fieldN_of_toNat {w : Word} {r : Nat} {n : Nibble} (h : w.toNat = 16 * r + n.toNat) : fieldN w = n := by
  have := n.isLt
  apply BitVec.eq_of_toNat_eq
  rw [fieldN_toNat]; omega

end Sys2Proof

namespace Sys2Proof.Machine

/-! ### A word and its instruction, one lemma per format -/

/-- Both directions of `Encodes` from the encoder's word: what it decodes to, and its number. -/
theorem encodes_of_encode {n : Nat} {i : Instr} (hn : (encode i).toNat = n) (hd : decodeWord (encode i) = .instr i) :
    Encodes n i := by
  subst hn
  refine ⟨?_, rfl⟩
  rwa [BitVec.ofNat_toNat, BitVec.setWidth_eq]

/-- Format A: an opcode `p` that the decoder reads as `f` of the field `nnn`. -/
theorem encodes_nnn {f : Imm12 → Instr} {p : Nat} (hp : p < 16) (nnn : Imm12)
    (he : encode (f nnn) = BitVec.ofNat 16 (4096 * p) ||| placeNNN nnn)
    (hd : ∀ w, (fieldOp w).toNat = p → decodeWord w = .instr (f (fieldNNN w))) :
    Encodes (4096 * p + nnn.toNat) (f nnn) := by
  have hn : (encode (f nnn)).toNat = 4096 * p + nnn.toNat := he ▸ encode_toNat_nnn p hp nnn
  refine encodes_of_encode hn ?_
  rw [hd _ (fieldOp_of_toNat nnn.isLt hn), fieldNNN_of_toNat hn]

/-- Format XK: an opcode `p` that the decoder reads as `f` of the fields `x` and `kk`. -/
theorem encodes_xkk {f : Reg → Byte → Instr} {p : Nat} (hp : p < 16) (x : Reg) (kk : Byte)
    (he : encode (f x kk) = BitVec.ofNat 16 (4096 * p) ||| placeX x ||| placeKK kk)
    (hd : ∀ w, (fieldOp w).toNat = p → decodeWord w = .instr (f (fieldX w) (fieldKK w))) :
    Encodes (4096 * p + 256 * x.toNat + kk.toNat) (f x kk) := by
  have hn : (encode (f x kk)).toNat = 4096 * p + 256 * x.toNat + kk.toNat := he ▸ encode_toNat_xkk p hp x kk
  have hx := x.isLt
  have hk := kk.isLt
  have hop : (fieldOp (encode (f x kk))).toNat = p :=
    fieldOp_of_toNat (r := 256 * x.toNat + kk.toNat) (by omega) (by omega)
  have hfx : fieldX (encode (f x kk)) = x := fieldX_of_toNat hk hn
  have hfk : fieldKK (encode (f x kk)) = kk := fieldKK_of_toNat (r := 16 * p + x.toNat) (by omega)
  refine encodes_of_encode hn ?_
  rw [hd _ hop, hfx, hfk]

/-- Formats XY and XS: an opcode `p` with the last nibble `q` that the decoder reads as `f` of the fields `x` and `y`. -/
theorem encodes_xy {f : Reg → Reg → Instr} {p q : Nat} (hp : p < 16) (hq : q < 16) (x y : Reg)
    (he : encode (f x y) = BitVec.ofNat 16 (4096 * p + q) ||| placeX x ||| placeY y)
    (hd : ∀ w, (fieldOp w).toNat = p → fieldN w = BitVec.ofNat 4 q → decodeWord w = .instr (f (fieldX w) (fieldY w))) :
    Encodes (4096 * p + 256 * x.toNat + 16 * y.toNat + q) (f x y) := by
  have hn : (encode (f x y)).toNat = 4096 * p + 256 * x.toNat + 16 * y.toNat + q := he ▸ encode_toNat_xyn p q hp hq x y
  have hx := x.isLt
  have hy := y.isLt
  have hq' : (BitVec.ofNat 4 q).toNat = q := BitVec.toNat_ofNat q 4 ▸ Nat.mod_eq_of_lt hq
  have hop : (fieldOp (encode (f x y))).toNat = p :=
    fieldOp_of_toNat (r := 256 * x.toNat + 16 * y.toNat + q) (by omega) (by omega)
  have hfx : fieldX (encode (f x y)) = x := fieldX_of_toNat (p := p) (r := 16 * y.toNat + q) (by omega) (by omega)
  have hfy : fieldY (encode (f x y)) = y := fieldY_of_toNat (r := 16 * p + x.toNat) hq (by omega)
  have hfn : fieldN (encode (f x y)) = BitVec.ofNat 4 q :=
    fieldN_of_toNat (r := 256 * p + 16 * x.toNat + y.toNat) (by omega)
  refine encodes_of_encode hn ?_
  rw [hd _ hop hfn, hfx, hfy]

/-! ### Address operands -/

@[simp] theorem zextImm_toNat (nnn : Imm12) : (zextImm nnn).toNat = nnn.toNat :=
  BitVec.toNat_setWidth_of_le (by decide)

@[simp] theorem zextByte_toNat (b : Byte) : (zextByte b).toNat = b.toNat :=
  BitVec.toNat_setWidth_of_le (by decide)

/-- A 12-bit address and a byte add up to less than 65536, so the sum in 16 bits is exact (rule R107). -/
theorem zextImm_add_zextByte_toNat (nnn : Imm12) (b : Byte) : (zextImm nnn + zextByte b).toNat = nnn.toNat + b.toNat := by
  have := nnn.isLt
  have := b.isLt
  rw [BitVec.toNat_add, zextImm_toNat, zextByte_toNat]; omega

/-! ### What the control instructions do -/

/-- `exec` raises the fault the table of rule R201 names. -/
theorem exec_of_faultOf_some {i : Instr} {s : State} {c : FaultCause} {w : Word} (h : faultOf i s = some (c, w)) :
    exec i s = .next (FaultedState c w s) :=
  (exec_eq_execWith i s).trans (execWith_of_faultOf_some h)

theorem exec_call_of_lt (nnn : Imm12) {s : State} (h : s.sp.toNat < 15) :
    exec (.call nnn) s = .next ((s.push h).setPc (zextImm nnn)) := dif_pos h

theorem exec_ret_of_slot {s : State} (h0 : s.sp.toNat ≠ 0) (h : s.sp.toNat < 16) : exec .ret s = .next (s.pop h) :=
  (if_neg (mt (sp_eq_zero_iff s).mp h0)).trans (dif_pos h)

theorem State.push_sp_toNat (s : State) (h : s.sp.toNat < 15) : (s.push h).sp.toNat = s.sp.toNat + 1 := by
  have hone : (1#8 : Byte).toNat = 1 := rfl
  rw [State.push_sp, BitVec.toNat_add, hone]; omega

/-- The push writes the slot of the new `SP` only (rule R102). -/
theorem State.push_stack_getElem (s : State) (h : s.sp.toNat < 15) (k : Fin 16) :
    (s.push h).stack[k] = if k.val = s.sp.toNat + 1 then s.pc else s.stack[k] := by
  simp only [State.push_stack, Fin.getElem_fin, Vector.getElem_set, eq_comm]

theorem State.pop_sp_toNat (s : State) (h0 : s.sp.toNat ≠ 0) (h : s.sp.toNat < 16) :
    (s.pop h).sp.toNat + 1 = s.sp.toNat := by
  have hone : (1#8 : Byte).toNat = 1 := rfl
  rw [State.pop_sp, BitVec.toNat_sub, hone]; omega

/-- An instruction that skips on `c` writes `PC` only, with the value `q` that `c` selects (rule R108). -/
theorem exec_skip {i : Instr} {s : State} {c : Bool} {q : Word} (he : exec i s = .next (skipIf c s))
    (hq : (if c then s.pc + 2#16 else s.pc) = q) :
    ∃ t, exec i s = .next t ∧ t.pc = q ∧ t = { s with pc := t.pc } ∧ SameMemory s t := by
  rw [skipIf_eq, hq] at he
  exact ⟨_, he, rfl, rfl, State.byteAt_congr rfl rfl⟩

/-! ### The statements -/

/-- Settles O21: the next state is `s.setPc (zextImm nnn)`. -/
theorem jumpSetsPc : Obligations.JumpSetsPc := by
  intro nnn
  refine ⟨encodes_nnn (p := 1) (by decide) nnn rfl fun w hop => by simp only [decodeWord, hop], fun s => ?_⟩
  exact ⟨_, rfl, zextImm_toNat nnn, rfl, State.byteAt_congr rfl rfl⟩

/-- Settles O22: below 15 the push writes the slot of the new `SP`; from 15 on the fault table names `StackOverflow`. -/
theorem callPushesReturnAddress : Obligations.CallPushesReturnAddress := by
  intro nnn
  refine ⟨encodes_nnn (p := 2) (by decide) nnn rfl fun w hop => by simp only [decodeWord, hop], fun s => ⟨?_, ?_⟩⟩
  · intro h
    exact ⟨_, exec_call_of_lt nnn h, zextImm_toNat nnn, s.push_sp_toNat h, s.push_stack_getElem h, rfl,
      State.byteAt_congr rfl rfl⟩
  · intro h
    exact exec_of_faultOf_some (if_pos h)

/-- Settles O23: a nonzero `SP` up to 15 names the slot that is popped; at 0 the fault table names `StackUnderflow`. -/
theorem returnPopsReturnAddress : Obligations.ReturnPopsReturnAddress := by
  refine ⟨encodes_of_encode rfl rfl, fun s => ⟨?_, ?_⟩⟩
  · intro k hk hsp
    have h0 : s.sp.toNat ≠ 0 := by omega
    have h16 : s.sp.toNat < 16 := by omega
    have hpc : (s.pop h16).pc = s.stack[k] := by simp only [State.pop_pc, hsp, Fin.getElem_fin]
    exact ⟨_, exec_ret_of_slot h0 h16, hpc, s.pop_sp_toNat h0 h16, rfl, State.byteAt_congr rfl rfl⟩
  · intro h
    exact exec_of_faultOf_some (if_pos h)

/-- Settles O26: both skips are `skipIf` on the comparison with `kk`, one on equality and one on its negation. -/
theorem immediateSkips : Obligations.ImmediateSkips := by
  intro x kk
  refine ⟨encodes_xkk (p := 3) (by decide) x kk rfl fun w hop => by simp only [decodeWord, hop],
    encodes_xkk (p := 4) (by decide) x kk rfl fun w hop => by simp only [decodeWord, hop], fun s => ⟨?_, ?_⟩⟩
  · exact exec_skip rfl (by simp only [beq_iff_eq])
  · exact exec_skip rfl (by simp only [bne_iff_ne, ne_eq, ite_not])

/-- Settles O27: both skips are `skipIf` on the comparison of `V[x]` with `V[y]`; the words end in the nibble 0. -/
theorem registerSkips : Obligations.RegisterSkips := by
  intro x y
  refine ⟨encodes_xy (p := 5) (q := 0) (by decide) (by decide) x y rfl fun w hop hn => ?_,
    encodes_xy (p := 9) (q := 0) (by decide) (by decide) x y rfl fun w hop hn => ?_, fun s => ⟨?_, ?_⟩⟩
  · simp only [decodeWord, hop, if_pos hn]
  · simp only [decodeWord, hop, if_pos hn]
  · exact exec_skip rfl (by simp only [beq_iff_eq])
  · exact exec_skip rfl (by simp only [bne_iff_ne, ne_eq, ite_not])

/-- Settles O28: the sum of a 12-bit address and a byte does not wrap in 16 bits. -/
theorem jumpOffsetAddsV0 : Obligations.JumpOffsetAddsV0 := by
  intro nnn
  refine ⟨encodes_nnn (p := 11) (by decide) nnn rfl fun w hop => by simp only [decodeWord, hop], fun s => ?_⟩
  exact ⟨_, rfl, zextImm_add_zextByte_toNat nnn (s.reg 0#4), rfl, State.byteAt_congr rfl rfl⟩

end Sys2Proof.Machine
end

section
/-! SUPPORT. PROOFS of the statements about the registers and the ALU (spec 42_alu.md rules R121 to R135), with the lemmas they
rest on: the words of opcode 8, the ALU's results as numbers, and what each of the three ALU writes leaves in the registers. -/

namespace Sys2Proof.Machine

/-! ### The words of opcode 8 -/

/-- Opcode 8: a last nibble `q` that the decoder reads as `f` of the fields `x` and `y` (rule R74). -/
theorem encodes_aluWord {f : Reg → Reg → Instr} {q : Nat} (hq : q < 16) (x y : Reg)
    (he : encode (f x y) = BitVec.ofNat 16 (0x8000 + q) ||| placeX x ||| placeY y)
    (hd : ∀ w, (fieldN w).toNat = q → decode8 w = .instr (f (fieldX w) (fieldY w))) :
    Encodes (0x8000 + q + 256 * x.toNat + 16 * y.toNat) (f x y) := by
  have henc : Encodes (4096 * 8 + 256 * x.toNat + 16 * y.toNat + q) (f x y) := by
    refine encodes_xy (by decide) hq x y he fun w hop hn => ?_
    have hw : decodeWord w = decode8 w := by simp only [decodeWord, hop]
    rw [hw, hd w (by rw [hn, BitVec.toNat_ofNat, Nat.mod_eq_of_lt hq])]
  rwa [show 0x8000 + q + 256 * x.toNat + 16 * y.toNat = 4096 * 8 + 256 * x.toNat + 16 * y.toNat + q by omega]

/-! ### Results and flags as numbers -/

theorem aluResult_add_toNat (a b : Byte) : (aluResult .add a b).toNat = (a.toNat + b.toNat) % 256 :=
  (BitVec.toNat_ofNat _ 8).trans (Nat.mod_mod _ _)

theorem aluResult_sub_toNat (a b : Byte) : (aluResult .sub a b).toNat = (a.toNat + 256 - b.toNat) % 256 :=
  (BitVec.toNat_ofNat _ 8).trans (Nat.mod_mod _ _)

theorem aluResult_shr_toNat (a b : Byte) : (aluResult .shr a b).toNat = a.toNat / 2 :=
  (BitVec.toNat_ofNat _ 8).trans (Nat.mod_eq_of_lt (by have := a.isLt; omega))

theorem aluResult_shl_toNat (a b : Byte) : (aluResult .shl a b).toNat = 2 * a.toNat % 256 :=
  (BitVec.toNat_ofNat _ 8).trans (Nat.mod_mod _ _)

/-- A flag shifted right is 0 (rule R129, for `x = 15`). -/
theorem aluResult_shr_flagByte (f : Bool) (b : Byte) : aluResult .shr (flagByte f) b = 0#8 := by
  cases f <;> rfl

/-- A flag shifted left is 2 or 0 (rule R131, for `x = 15`). -/
theorem aluResult_shl_flagByte (f : Bool) (b : Byte) : aluResult .shl (flagByte f) b = if f then 2#8 else 0#8 := by
  cases f <;> rfl

theorem flagByte_decide (p : Prop) [Decidable p] : flagByte (decide p) = if p then 1#8 else 0#8 := by
  simp only [flagByte, decide_eq_true_eq]

/-- Bit 7 of a byte is set exactly from 128 on. -/
theorem shiftedOutHigh_eq (a : Byte) : shiftedOutHigh a = decide (128 ≤ a.toNat) := by
  have := a.isLt
  exact decide_eq_decide.mpr (by omega)

/-! ### What the ALU writes leave -/

/-- A state that differs in the register file only has the same memory. -/
theorem sameMemory_of_eq_v {s t : State} (h : t = { s with v := t.v }) : SameMemory s t :=
  State.byteAt_congr (by rw [h]) (by rw [h])

theorem reg_aluWrite_self (op : AluOp) (x : Reg) (a b : Byte) (s : State) :
    (aluWrite op x a b s).reg x = aluResult op a b := by
  rw [reg_aluWrite, if_pos rfl]

/-- A write without a flag changes its destination only. -/
theorem aluWrite_frame (op : AluOp) (x : Reg) (a b : Byte) (s : State) :
    (∀ r, r ≠ x → (aluWrite op x a b s).reg r = s.reg r) ∧
      aluWrite op x a b s = { s with v := (aluWrite op x a b s).v } ∧ SameMemory s (aluWrite op x a b s) := by
  refine ⟨fun r hr => ?_, aluWrite_eq op x a b s, sameMemory_of_eq_v (aluWrite_eq op x a b s)⟩
  rw [reg_aluWrite, if_neg hr]

theorem aluWriteThenFlag_reg_vf {op : AluOp} {a b : Byte} {f : Bool} (hf : aluFlag op a b = some f) (x : Reg)
    (s : State) : (aluWriteThenFlag op x a b s).reg vf = flagByte f := by
  rw [reg_aluWriteThenFlag hf, if_pos rfl]

theorem aluWriteThenFlag_reg_dest {op : AluOp} {a b : Byte} {f : Bool} (hf : aluFlag op a b = some f) {x : Reg}
    (hx : x ≠ vf) (s : State) : (aluWriteThenFlag op x a b s).reg x = aluResult op a b := by
  rw [reg_aluWriteThenFlag hf, if_neg hx, if_pos rfl]

/-- Result first, flag second: only the destination and `VF` change. -/
theorem aluWriteThenFlag_frame {op : AluOp} {a b : Byte} {f : Bool} (hf : aluFlag op a b = some f) (x : Reg) (s : State) :
    (∀ r, r ≠ x → r ≠ vf → (aluWriteThenFlag op x a b s).reg r = s.reg r) ∧
      aluWriteThenFlag op x a b s = { s with v := (aluWriteThenFlag op x a b s).v } ∧
      SameMemory s (aluWriteThenFlag op x a b s) := by
  refine ⟨fun r hr hvf => ?_, aluWriteThenFlag_eq op x a b s, sameMemory_of_eq_v (aluWriteThenFlag_eq op x a b s)⟩
  rw [reg_aluWriteThenFlag hf, if_neg hvf, if_neg hr]

theorem aluFlagThenWrite_reg_vf {op : AluOp} {x : Reg} {s : State} {f : Bool}
    (hf : aluFlag op (s.reg x) 0#8 = some f) (hx : x ≠ vf) : (aluFlagThenWrite op x s).reg vf = flagByte f := by
  rw [reg_aluFlagThenWrite hf, if_neg hx.symm, if_pos rfl]

theorem aluFlagThenWrite_reg_dest {op : AluOp} {x : Reg} {s : State} {f : Bool}
    (hf : aluFlag op (s.reg x) 0#8 = some f) (hx : x ≠ vf) :
    (aluFlagThenWrite op x s).reg x = aluResult op (s.reg x) 0#8 := by
  rw [reg_aluFlagThenWrite hf, if_pos rfl, if_neg hx]

/-- With `VF` as the destination the result is that of the flag just written (rules R129, R131, decision D14). -/
theorem aluFlagThenWrite_vf {op : AluOp} {s : State} {f : Bool} (hf : aluFlag op (s.reg vf) 0#8 = some f) :
    (aluFlagThenWrite op vf s).reg vf = aluResult op (flagByte f) 0#8 := by
  rw [reg_aluFlagThenWrite hf, if_pos rfl, if_pos rfl]

/-- Flag first, result second: only the destination and `VF` change. -/
theorem aluFlagThenWrite_frame {op : AluOp} {x : Reg} {s : State} {f : Bool} (hf : aluFlag op (s.reg x) 0#8 = some f) :
    (∀ r, r ≠ x → r ≠ vf → (aluFlagThenWrite op x s).reg r = s.reg r) ∧
      aluFlagThenWrite op x s = { s with v := (aluFlagThenWrite op x s).v } ∧ SameMemory s (aluFlagThenWrite op x s) := by
  refine ⟨fun r hr hvf => ?_, aluFlagThenWrite_eq op x s, sameMemory_of_eq_v (aluFlagThenWrite_eq op x s)⟩
  rw [reg_aluFlagThenWrite hf, if_neg hr, if_neg hvf]

/-! ### `rand` and the step that fetches it -/

theorem reg_randWith_self (rb : Byte) (x : Reg) (kk : Byte) (s : State) : (randWith rb x kk s).reg x = kk &&& rb :=
  reg_aluWrite_self .and x kk rb s

theorem reg_randWith_of_ne (rb : Byte) {x q : Reg} (kk : Byte) (s : State) (hq : q ≠ x) :
    (randWith rb x kk s).reg q = s.reg q :=
  (reg_aluWrite .and x q kk rb s).trans (if_neg hq)

/-- Where a fetch is possible the advance of `PC` does not wrap (rule R92). -/
theorem State.advance_pc_toNat {s : State} (hp : s.pc.toNat ≤ 0xFFE) : s.advance.pc.toNat = s.pc.toNat + 2 := by
  have htwo : (2#16 : Word).toNat = 2 := rfl
  rw [State.advance_pc, BitVec.toNat_add, htwo, Nat.mod_eq_of_lt (by omega)]

/-- A step at a state whose word at `PC` encodes `i` runs `i` on the advanced state (rules R91, R92, R94). -/
theorem cycle_of_encodes {run : Instr → State → Result} {s : State} {n : Nat} {i : Instr} (hi : Encodes n i)
    (hf : s.fault = none) (hp : s.pc.toNat ≤ 0xFFE)
    (hn : (s.byteAt s.pc.toNat).toNat * 256 + (s.byteAt (s.pc.toNat + 1)).toNat = n) : cycle run s = run i s.advance := by
  obtain ⟨hdec, -⟩ := hi
  have hfetch : decodeWord s.fetchWord = .instr i := by rw [fetchWord_eq_ofNat, hn, hdec]
  exact cycle_of_instr hf hp hfetch

/-! ### The statements -/

/-- Settles O30: the ALU passes `kk` through to the destination, and the write touches nothing else. -/
theorem loadImmSetsRegister : Obligations.LoadImmSetsRegister := by
  intro x kk
  refine ⟨encodes_xkk (p := 6) (by decide) x kk rfl fun w hop => by simp only [decodeWord, hop], fun s => ?_⟩
  exact ⟨_, rfl, reg_aluWrite_self .pass x _ kk s, aluWrite_frame .pass x _ kk s⟩

/-- Settles O31: the ALU's sum is written without its flag. -/
theorem addImmWrapsWithoutFlag : Obligations.AddImmWrapsWithoutFlag := by
  intro x kk
  refine ⟨encodes_xkk (p := 7) (by decide) x kk rfl fun w hop => by simp only [decodeWord, hop], fun s => ?_⟩
  refine ⟨_, rfl, ?_, aluWrite_frame .add x _ kk s⟩
  rw [reg_aluWrite_self, aluResult_add_toNat]

/-- Settles O32: the four are one write without a flag, and differ in the ALU operation and the last nibble only. -/
theorem moveAndBitwiseWriteDestinationOnly : Obligations.MoveAndBitwiseWriteDestinationOnly := by
  intro x y
  refine ⟨encodes_aluWord (q := 0) (by decide) x y rfl fun w hn => by simp only [decode8, hn],
    encodes_aluWord (q := 1) (by decide) x y rfl fun w hn => by simp only [decode8, hn],
    encodes_aluWord (q := 2) (by decide) x y rfl fun w hn => by simp only [decode8, hn],
    encodes_aluWord (q := 3) (by decide) x y rfl fun w hn => by simp only [decode8, hn], fun s => ⟨?_, ?_, ?_, ?_⟩⟩
  · exact ⟨_, rfl, reg_aluWrite_self .pass x _ _ s, aluWrite_frame .pass x _ _ s⟩
  · exact ⟨_, rfl, reg_aluWrite_self .or x _ _ s, aluWrite_frame .or x _ _ s⟩
  · exact ⟨_, rfl, reg_aluWrite_self .and x _ _ s, aluWrite_frame .and x _ _ s⟩
  · exact ⟨_, rfl, reg_aluWrite_self .xor x _ _ s, aluWrite_frame .xor x _ _ s⟩

/-- Settles O33: the carry is written after the sum, so it is what `VF` ends with for every destination. -/
theorem addSetsCarry : Obligations.AddSetsCarry := by
  intro x y
  refine ⟨encodes_aluWord (q := 4) (by decide) x y rfl fun w hn => by simp only [decode8, hn], fun s => ?_⟩
  have hf : aluFlag .add (s.reg x) (s.reg y) = some (carryOut (s.reg x) (s.reg y)) := rfl
  refine ⟨_, rfl, ?_, fun hx => ?_, aluWriteThenFlag_frame hf x s⟩
  · rw [aluWriteThenFlag_reg_vf hf, carryOut, flagByte_decide]
  · rw [aluWriteThenFlag_reg_dest hf hx, aluResult_add_toNat]

/-- A subtraction `a - b` into `V[x]`: the difference, the flag of no borrow and the frame, as rules R128 and R130 both have
it. -/
theorem aluSub_spec (x : Reg) (a b : Byte) (s : State) :
    (aluWriteThenFlag .sub x a b s).reg vf = (if b.toNat ≤ a.toNat then 1#8 else 0#8) ∧
      (x ≠ vf → ((aluWriteThenFlag .sub x a b s).reg x).toNat = (a.toNat + 256 - b.toNat) % 256) ∧
      (∀ r, r ≠ x → r ≠ vf → (aluWriteThenFlag .sub x a b s).reg r = s.reg r) ∧
      aluWriteThenFlag .sub x a b s = { s with v := (aluWriteThenFlag .sub x a b s).v } ∧
      SameMemory s (aluWriteThenFlag .sub x a b s) := by
  have hf : aluFlag .sub a b = some (noBorrow a b) := rfl
  refine ⟨?_, fun hx => ?_, aluWriteThenFlag_frame hf x s⟩
  · rw [aluWriteThenFlag_reg_vf hf, noBorrow, flagByte_decide]
  · rw [aluWriteThenFlag_reg_dest hf hx, aluResult_sub_toNat]

/-- Settles O34: `subn` is `sub` with the operands exchanged. -/
theorem subtractSetsNoBorrow : Obligations.SubtractSetsNoBorrow := by
  intro x y
  refine ⟨encodes_aluWord (q := 5) (by decide) x y rfl fun w hn => by simp only [decode8, hn],
    encodes_aluWord (q := 7) (by decide) x y rfl fun w hn => by simp only [decode8, hn], fun s => ⟨?_, ?_⟩⟩
  · exact ⟨_, rfl, aluSub_spec x (s.reg x) (s.reg y) s⟩
  · exact ⟨_, rfl, aluSub_spec x (s.reg y) (s.reg x) s⟩

/-- Settles O35: the flag is written first, so `shr VF` shifts the flag itself, to 0. -/
theorem shrMovesLowBitToFlag : Obligations.ShrMovesLowBitToFlag := by
  intro x y
  refine ⟨encodes_aluWord (q := 6) (by decide) x y rfl fun w hn => by simp only [decode8, hn], fun s => ?_⟩
  have hf : aluFlag .shr (s.reg x) 0#8 = some (shiftedOutLow (s.reg x)) := rfl
  refine ⟨_, rfl, fun hx => ⟨?_, ?_⟩, fun hx => ?_, aluFlagThenWrite_frame hf⟩
  · rw [aluFlagThenWrite_reg_vf hf hx, shiftedOutLow, flagByte_decide]
  · rw [aluFlagThenWrite_reg_dest hf hx, aluResult_shr_toNat]
  · subst hx
    rw [aluFlagThenWrite_vf hf, aluResult_shr_flagByte]

/-- Settles O36: the flag is written first, so `shl VF` shifts the flag itself, to 2 or 0. -/
theorem shlMovesHighBitToFlag : Obligations.ShlMovesHighBitToFlag := by
  intro x y
  refine ⟨encodes_aluWord (q := 14) (by decide) x y rfl fun w hn => by simp only [decode8, hn], fun s => ?_⟩
  have hf : aluFlag .shl (s.reg x) 0#8 = some (decide (128 ≤ (s.reg x).toNat)) := congrArg some (shiftedOutHigh_eq _)
  refine ⟨_, rfl, fun hx => ⟨?_, ?_⟩, fun hx => ?_, aluFlagThenWrite_frame hf⟩
  · rw [aluFlagThenWrite_reg_vf hf hx, flagByte_decide]
  · rw [aluFlagThenWrite_reg_dest hf hx, aluResult_shl_toNat]
  · subst hx
    simp only [aluFlagThenWrite_vf hf, aluResult_shl_flagByte, decide_eq_true_eq]

/-- Settles O37: the command's step fetches the word and runs the same `rand` on the advanced state. -/
theorem randMasksTheRandomByte : Obligations.RandMasksTheRandomByte := by
  intro x kk
  have henc : Encodes (0xC000 + 256 * x.toNat + kk.toNat) (.rand x kk) :=
    encodes_xkk (p := 12) (by decide) x kk rfl fun w hop => by simp only [decodeWord, hop]
  refine ⟨henc, fun s rb => ⟨?_, fun hf hp hn => ?_⟩⟩
  · exact ⟨_, rfl, reg_randWith_self rb x kk s, fun r hr => reg_randWith_of_ne rb kk s hr, rfl,
      State.byteAt_congr rfl rfl⟩
  · exact ⟨_, cycle_of_encodes henc hf hp hn, reg_randWith_self rb x kk s.advance, State.advance_pc_toNat hp,
      fun r hr => reg_randWith_of_ne rb kk s.advance hr, rfl, State.byteAt_congr rfl rfl⟩

end Sys2Proof.Machine
end

section
/-! SUPPORT. PROOFS of the statements about the index register and memory (spec 43_index_memory.md rules R140 to R147), with the
lemmas they rest on: the words of format X, what a range of byte stores or register writes leaves, and the memory instructions
within the bound of rule R55. -/

namespace Sys2Proof.Machine

/-! ### The words of format X -/

/-- Format X: an opcode `p` with the low byte `q` that the decoder reads as `f` of the field `x`. -/
theorem encodes_x {f : Reg → Instr} {p q : Nat} (hp : p < 16) (hq : q < 256) (x : Reg)
    (he : encode (f x) = BitVec.ofNat 16 (4096 * p + q) ||| placeX x)
    (hd : ∀ w, (fieldOp w).toNat = p → (fieldKK w).toNat = q → decodeWord w = .instr (f (fieldX w))) :
    Encodes (4096 * p + q + 256 * x.toNat) (f x) := by
  have hn : (encode (f x)).toNat = 4096 * p + 256 * x.toNat + q := he ▸ encode_toNat_x p q hp hq x
  have hx := x.isLt
  have hop : (fieldOp (encode (f x))).toNat = p := fieldOp_of_toNat (r := 256 * x.toNat + q) (by omega) (by omega)
  have hkk : (fieldKK (encode (f x))).toNat = q := by rw [fieldKK_toNat]; omega
  have hfx : fieldX (encode (f x)) = x := fieldX_of_toNat hq hn
  refine encodes_of_encode (by omega) ?_
  rw [hd _ hop hkk, hfx]

/-! ### Index arithmetic -/

/-- A byte times 5 stays below 65536 (rule R142). -/
theorem zextByte_mul_five_toNat (b : Byte) : (zextByte b * 5#16).toNat = b.toNat * 5 := by
  have hb := b.isLt
  have hfive : (5#16 : Word).toNat = 5 := rfl
  rw [BitVec.toNat_mul, zextByte_toNat, hfive]; omega

theorem add_zextByte_toNat (w : Word) (b : Byte) : (w + zextByte b).toNat = (w.toNat + b.toNat) % 65536 := by
  rw [BitVec.toNat_add, zextByte_toNat]

/-! ### A range of bytes stored, a range of registers loaded -/

section StoreBytes
variable {s : State} {a : Nat} {bs : List Byte} (hwf : Memory.wf s.config.font s.memory)
  (ha : a + bs.length ≤ Config.memSize)
include hwf ha

/-- Byte `k` of the stored list is what address `a + k` holds afterwards. -/
theorem State.byteAt_storeBytes_of_getElem? {k : Nat} {b : Byte} (hk : bs[k]? = some b) :
    (s.storeBytes a bs).byteAt (a + k) = b := by
  have hlt : k < bs.length := (List.getElem?_eq_some_iff.mp hk).1
  rw [State.byteAt_storeBytes bs hwf a ha, if_pos ⟨by omega, by omega⟩, Nat.add_sub_cancel_left,
    List.getD_eq_getElem?_getD, hk, Option.getD_some]

/-- Outside the stored range every byte is as before. -/
theorem State.byteAt_storeBytes_outside {x : Nat} (hx : x < a ∨ a + bs.length ≤ x) :
    (s.storeBytes a bs).byteAt x = s.byteAt x := by
  rw [State.byteAt_storeBytes bs hwf a ha, if_neg (by omega)]

end StoreBytes

/-- The first `n` registers loaded from the `n` bytes at `a`. -/
theorem State.reg_setRegs_loadBytes (s : State) (a : Nat) {n : Nat} (hn : n ≤ 16) (r : Reg) :
    (s.setRegs 0 (s.loadBytes a n)).reg r = if r.toNat < n then s.byteAt (a + r.toNat) else s.reg r := by
  rw [State.reg_setRegs _ s 0 (by rw [State.loadBytes_length]; omega), State.loadBytes_length, Nat.zero_add]
  by_cases hr : r.toNat < n
  · rw [if_pos ⟨Nat.zero_le _, hr⟩, if_pos hr, Nat.sub_zero, List.getD_eq_getElem?_getD, State.loadBytes_getElem?,
      if_pos hr, Option.getD_some]
  · rw [if_neg (fun h => hr h.2), if_neg hr]

/-- The list `store-regs Vx` stores has `V[k]` at place `k`, up to `x` (rule R144). -/
theorem State.regsUpTo_getElem?_reg (s : State) {x k : Reg} (hk : k.toNat ≤ x.toNat) :
    (s.regsUpTo x)[k.toNat]? = some (s.reg k) := by
  rw [State.regsUpTo_getElem?, if_pos (Nat.lt_succ_of_le hk), BitVec.ofNat_toNat, BitVec.setWidth_eq]

/-- A number up to a byte's value is held exactly in a byte. -/
theorem toNat_ofNat_of_le_byte {b : Byte} {n : Nat} (hn : n ≤ b.toNat) : (BitVec.ofNat 8 n).toNat = n := by
  have hb := b.isLt
  rw [BitVec.toNat_ofNat, Nat.mod_eq_of_lt (by omega)]

/-! ### The memory instructions within bounds (rule R55) -/

theorem exec_bcd_of_le (x : Reg) {s : State} (h : s.base + 2 ≤ 0xFFF) :
    exec (.bcd x) s = .next (s.storeBytes s.base (bcdDigits (s.reg x))) :=
  if_neg (mt (outOfBounds_three_iff s).mp (Nat.not_lt.mpr h))

theorem exec_storeRegs_of_le {x : Reg} {s : State} (h : s.base + x.toNat ≤ 0xFFF) :
    exec (.storeRegs x) s = .next (s.storeBytes s.base (s.regsUpTo x)) :=
  if_neg (mt (outOfBounds_regCount_iff s x).mp (Nat.not_lt.mpr h))

theorem exec_loadRegs_of_le {x : Reg} {s : State} (h : s.base + x.toNat ≤ 0xFFF) :
    exec (.loadRegs x) s = .next (s.setRegs 0 (s.loadBytes s.base (regCount x))) :=
  if_neg (mt (outOfBounds_regCount_iff s x).mp (Nat.not_lt.mpr h))

/-! ### The statements -/

/-- Settles O40: the three digits are stored at consecutive addresses, each of them small enough for its byte; past the bound
the fault table names `MemWriteOutOfBounds`. -/
theorem bcdStoresThreeDigits : Obligations.BcdStoresThreeDigits := by
  intro x
  refine ⟨encodes_x (p := 15) (q := 0x33) (by decide) (by decide) x rfl fun w hop hkk => ?_, fun s => ⟨?_, ?_⟩⟩
  · simp only [decodeWord, hop, decodeF, hkk]
  · intro hwf h
    have ha : s.base + (bcdDigits (s.reg x)).length ≤ Config.memSize := Nat.succ_le_succ h
    have hdigit : ∀ {k n : Nat}, (bcdDigits (s.reg x))[k]? = some (BitVec.ofNat 8 n) → n ≤ (s.reg x).toNat →
        ((s.storeBytes s.base (bcdDigits (s.reg x))).byteAt (s.base + k)).toNat = n := fun hk hn => by
      rw [State.byteAt_storeBytes_of_getElem? hwf ha hk, toNat_ofNat_of_le_byte hn]
    exact ⟨_, exec_bcd_of_le x h, hdigit (k := 0) rfl (by omega), hdigit rfl (by omega), hdigit rfl (by omega),
      fun a hout => State.byteAt_storeBytes_outside hwf ha hout, State.storeBytes_eq _ _ _⟩
  · intro h
    exact exec_of_faultOf_some (if_pos h)

/-- Settles O41: the stored list is `V[0]` to `V[x]`; past the bound the fault table names `MemWriteOutOfBounds`. -/
theorem storeRegsCopiesRangeToMemory : Obligations.StoreRegsCopiesRangeToMemory := by
  intro x
  refine ⟨encodes_x (p := 15) (q := 0x55) (by decide) (by decide) x rfl fun w hop hkk => ?_, fun s => ⟨?_, ?_⟩⟩
  · simp only [decodeWord, hop, decodeF, hkk]
  · intro hwf h
    have ha : s.base + (s.regsUpTo x).length ≤ Config.memSize := by
      rw [State.regsUpTo_length]
      exact Nat.succ_le_succ h
    refine ⟨_, exec_storeRegs_of_le h, fun k hk => ?_, fun a hout => ?_, State.storeBytes_eq _ _ _⟩
    · exact State.byteAt_storeBytes_of_getElem? hwf ha (s.regsUpTo_getElem?_reg hk)
    · refine State.byteAt_storeBytes_outside hwf ha ?_
      rw [State.regsUpTo_length]
      exact hout
  · intro h
    exact exec_of_faultOf_some (if_pos h)

/-- Settles O42: the registers below `x + 1` are loaded and only the register file changes; past the bound the fault table
names `MemReadOutOfBounds`. -/
theorem loadRegsCopiesRangeFromMemory : Obligations.LoadRegsCopiesRangeFromMemory := by
  intro x
  refine ⟨encodes_x (p := 15) (q := 0x65) (by decide) (by decide) x rfl fun w hop hkk => ?_, fun s => ⟨?_, ?_⟩⟩
  · simp only [decodeWord, hop, decodeF, hkk]
  · intro h
    have hframe := State.setRegs_eq (s.loadBytes s.base (regCount x)) s 0
    refine ⟨_, exec_loadRegs_of_le h, fun r => ?_, hframe, sameMemory_of_eq_v hframe⟩
    have hcount : regCount x ≤ 16 := x.isLt
    rw [State.reg_setRegs_loadBytes s s.base hcount]
    simp only [regCount, Nat.lt_add_one_iff]
  · intro h
    exact exec_of_faultOf_some (if_pos h)

/-- Settles O39: each of the three is one write of `I`, and its value is the number the rule gives. -/
theorem indexInstructionsSetI : Obligations.IndexInstructionsSetI := by
  refine ⟨fun nnn => ⟨?_, fun s => ?_⟩, fun x => ⟨?_, fun s => ?_⟩, fun x => ⟨?_, fun s => ?_⟩⟩
  · exact encodes_nnn (p := 10) (by decide) nnn rfl fun w hop => by simp only [decodeWord, hop]
  · exact ⟨_, rfl, zextImm_toNat nnn, rfl, State.byteAt_congr rfl rfl⟩
  · exact encodes_x (p := 15) (q := 0x1E) (by decide) (by decide) x rfl fun w hop hkk => by
      simp only [decodeWord, hop, decodeF, hkk]
  · exact ⟨_, rfl, add_zextByte_toNat s.i (s.reg x), rfl, State.byteAt_congr rfl rfl⟩
  · exact encodes_x (p := 15) (q := 0x29) (by decide) (by decide) x rfl fun w hop hkk => by
      simp only [decodeWord, hop, decodeF, hkk]
  · exact ⟨_, rfl, zextByte_mul_five_toNat (s.reg x), rfl, State.byteAt_congr rfl rfl⟩

end Sys2Proof.Machine
end

section
/-! SUPPORT. PROOFS of the statements about the display (spec 44_display.md rules R160 to R168), with the lemmas they rest on: the
word of `draw`, the plotter as one fold over the pixels, and what `draw` leaves within the bound of rule R55. -/

namespace Sys2Proof.Machine

/-! ### The word of `draw` -/

/-- Format XYN: opcode 13 with the fields `x`, `y` and `n` (rules R72, R74). -/
theorem encodes_draw (x y : Reg) (n : Nibble) :
    Encodes (0xD000 + 256 * x.toNat + 16 * y.toNat + n.toNat) (.draw x y n) := by
  have hw : (encode (.draw x y n)).toNat = 4096 * 13 + 256 * x.toNat + 16 * y.toNat + n.toNat :=
    encode_toNat_draw 13 (by decide) x y n
  have hx := x.isLt
  have hy := y.isLt
  have hn := n.isLt
  have hop : (fieldOp (encode (.draw x y n))).toNat = 13 :=
    fieldOp_of_toNat (r := 256 * x.toNat + 16 * y.toNat + n.toNat) (by omega) (by omega)
  have hfx : fieldX (encode (.draw x y n)) = x :=
    fieldX_of_toNat (p := 13) (r := 16 * y.toNat + n.toNat) (by omega) (by omega)
  have hfy : fieldY (encode (.draw x y n)) = y := fieldY_of_toNat (r := 16 * 13 + x.toNat) hn (by omega)
  have hfn : fieldN (encode (.draw x y n)) = n := fieldN_of_toNat (r := 256 * 13 + 16 * x.toNat + y.toNat) (by omega)
  refine encodes_of_encode hw ?_
  simp only [decodeWord, hop, hfx, hfy, hfn]

/-! ### The plotter as a fold -/

/-- The rows of a sprite are plotted one after another, row `k` of the list at row `r + k` of the sprite (rule R161). -/
theorem plotRows_eq_foldl (W H x y : Nat) (bytes : List Byte) (r : Nat) (p : Plot) :
    plotRows W H x y r bytes p =
      (List.range bytes.length).foldl (fun q k => plotRow W H x y (r + k) (bytes.getD k 0#8) q) p := by
  induction bytes generalizing r p with
  | nil => rfl
  | cons b bs ih =>
    rw [plotRows, ih, List.length_cons, List.range_succ_eq_map, List.foldl_cons, List.foldl_map]
    simp only [Nat.succ_eq_add_one, List.getD_cons_zero, List.getD_cons_succ, Nat.add_zero, Nat.add_assoc, Nat.add_comm 1]

/-- The plotter is one fold of `plotPixel` over the pixels, rows ascending and columns ascending (rule R161). -/
theorem drawBytes_eq_foldl_plotPixel (W H x y : Nat) (bytes : List Byte) (fb : List Bool) :
    drawBytes W H x y bytes fb =
      ((List.range bytes.length).flatMap fun r => (List.range Config.spriteWidth).map fun c => (r, c)).foldl
        (fun q rc => plotPixel (pixelCell W H x y rc.1 rc.2) (spriteBit (bytes.getD rc.1 0#8) rc.2) q) (fb, false) := by
  simp only [drawBytes, plotRows_eq_foldl, Nat.zero_add, plotRow, List.foldl_flatMap, List.foldl_map]

/-! ### `draw` within bounds (rule R55) -/

theorem exec_draw_of_le (x y : Reg) {n : Nibble} {s : State} (h : s.base + n.toNat ≤ 0x1000) :
    exec (.draw x y n) s = .next ((s.setFb (spritePlot x y n s).1).setFlag (spritePlot x y n s).2) :=
  if_neg (mt (outOfBounds_iff s _).mp (Nat.not_lt.mpr h))

/-- `VF` after a flag write is the flag as a byte (rule R164, for the collision bit). -/
theorem State.reg_vf_setFlag (s : State) (f : Bool) : (s.setFlag f).reg vf = flagByte f := by
  rw [State.reg_setFlag, if_pos rfl]

theorem flagByte_zero_or_one (f : Bool) : flagByte f = 0#8 ∨ flagByte f = 1#8 := by
  cases f with
  | false => exact .inl rfl
  | true => exact .inr rfl

/-- A sprite of no rows plots nothing (rule R164). -/
theorem spritePlot_zero (x y : Reg) (s : State) : spritePlot x y 0#4 s = (s.fb, false) :=
  drawBytes_nil _ _ _ _ _

/-! ### The statements -/

/-- Settles O46: the model's rows and columns, flattened to one fold, are the loop of rule R161. -/
theorem plotterFollowsTheLoop : Obligations.PlotterFollowsTheLoop :=
  fun W H x y bytes fb => drawBytes_eq_foldl_plotPixel W H x y bytes fb

/-- Settles O45: within the bound the plot's display is stored and its collision bit becomes `VF`; past the bound the fault table
names `MemReadOutOfBounds`. -/
theorem drawPlotsSpriteAndSetsFlag : Obligations.DrawPlotsSpriteAndSetsFlag := by
  intro x y n
  refine ⟨encodes_draw x y n, fun s => ⟨?_, ?_⟩⟩
  · intro h
    have hvf := (s.setFb (spritePlot x y n s).1).reg_vf_setFlag (spritePlot x y n s).2
    refine ⟨_, exec_draw_of_le x y h, Prod.ext rfl ?collision, ?zeroOrOne, ?noRows, fun r hr => ?otherRegisters, rfl,
      State.byteAt_congr rfl rfl⟩
    case collision =>
      rw [hvf]
      simp only [flagByte_eq_one, Bool.decide_eq_true]
      rfl
    case zeroOrOne => exact hvf ▸ flagByte_zero_or_one _
    case noRows =>
      rintro rfl
      rw [hvf, spritePlot_zero]
      exact ⟨rfl, rfl⟩
    case otherRegisters => rw [State.reg_setFlag, if_neg hr]; rfl
  · intro h
    exact exec_of_faultOf_some (if_pos h)

/-- Settles O44: the new display is a list of exactly as many cells as the screen has, each of them Off. -/
theorem clearTurnsEveryCellOff : Obligations.ClearTurnsEveryCellOff := by
  refine ⟨encodes_of_encode rfl rfl, fun s => ⟨_, rfl, ?cells, fun j hj => ?off, rfl, State.byteAt_congr rfl rfl⟩⟩
  case cells => rw [State.setFb_fb, List.length_replicate]
  case off => rw [State.setFb_fb, List.getElem?_replicate_of_lt hj]

end Sys2Proof.Machine
end

section
/-! SUPPORT. PROOFS of the statements about keys and timers (spec 45_keyboard_timer.md rules R180 to R187), with the lemmas they
rest on: the two outcomes of a key skip and of `wait-key`, a single register write, and what a tick or a key command leaves. -/

namespace Sys2Proof.Machine

/-! ### The keys (rules R180 to R182) -/

/-- A register value that is a key's number names that key. -/
theorem keyNumber_of_toNat_eq {b : Byte} {k : Reg} (h : b.toNat = k.toNat) : keyNumber b = some k := by
  have hk := k.isLt
  have hkey : b.setWidth 4 = k := BitVec.eq_of_toNat_eq (by rw [BitVec.toNat_setWidth]; omega)
  rw [keyNumber_some (by omega), hkey]

/-- The number of a key is held exactly in a register. -/
theorem toNat_keyByte (k : Reg) : (k.setWidth 8).toNat = k.toNat :=
  BitVec.toNat_setWidth_of_le (by decide)

theorem exec_skipKey_of_key {x k : Reg} {s : State} (h : (s.reg x).toNat = k.toNat) :
    exec (.skipKey x) s = .next (skipIf (s.key k) s) := by
  simp only [exec, execSkipKey, keyNumber_of_toNat_eq h]

theorem exec_skipNokey_of_key {x k : Reg} {s : State} (h : (s.reg x).toNat = k.toNat) :
    exec (.skipNokey x) s = .next (skipIf (!s.key k) s) := by
  simp only [exec, execSkipNokey, keyNumber_of_toNat_eq h]

theorem exec_waitKey_of_no_key (x : Reg) {s : State} (h : ∀ k, s.key k = false) :
    exec (.waitKey x) s = .next (s.setPc s.pc0) := by
  simp only [exec, execWaitKey, s.firstPressed_none.mpr h]

theorem exec_waitKey_of_lowest_key (x : Reg) {s : State} {k : Reg} (hk : s.key k = true)
    (hlow : ∀ j : Reg, j.toNat < k.toNat → s.key j = false) :
    exec (.waitKey x) s = .next (s.setReg x (k.setWidth 8)) := by
  simp only [exec, execWaitKey, (s.firstPressed_some k).mpr ⟨hk, hlow⟩]

/-- `PC - 2` after the advance is the `PC` before it, for every `PC`: the wrap of the one undoes the wrap of the other. -/
theorem State.setPc_pc0_advance (s : State) : s.advance.setPc s.advance.pc0 = s := by
  simp only [State.advance, State.pc0, State.setPc, BitVec.add_sub_cancel]

/-! ### A single register write -/

theorem State.reg_setReg_self (s : State) (x : Reg) (b : Byte) : (s.setReg x b).reg x = b := by
  rw [State.reg_setReg, if_pos rfl]

/-- A register write changes its destination only. -/
theorem State.setReg_frame (s : State) (x : Reg) (b : Byte) :
    (∀ r, r ≠ x → (s.setReg x b).reg r = s.reg r) ∧ s.setReg x b = { s with v := (s.setReg x b).v } ∧
      SameMemory s (s.setReg x b) := by
  refine ⟨fun r hr => ?_, s.setReg_eq x b, sameMemory_of_eq_v (s.setReg_eq x b)⟩
  rw [State.reg_setReg, if_neg hr]

/-! ### Host commands on a running and on a Faulted machine (rule R205) -/

theorem runCommands_cons_of_next {c : Command} {s t : State} (h : command c s = .next t) (cs : List Command) :
    runCommands (c :: cs) s = runCommands cs t := by
  rw [runCommands, h]

theorem command_tickTimers_of_running {s : State} (h : s.fault = none) :
    command .tickTimers s = .next ((s.setDt (tickByte s.dt)).setSt (tickByte s.st)) :=
  congrArg Host.Outcome.next (if_neg (Option.not_isSome_iff_eq_none.mpr h))

theorem command_tickTimers_of_faulted {s : State} (h : s.fault ≠ none) : command .tickTimers s = .next s :=
  congrArg Host.Outcome.next (if_pos (Option.isSome_iff_ne_none.mpr h))

/-- `n` ticks of one timer take `n` off it, cut off at 0 (rule R186). -/
theorem tickByte_iterate_toNat (n : Nat) (b : Byte) : (tickByte^[n] b).toNat = b.toNat - n := by
  induction n with
  | zero => rfl
  | succ n ih => rw [Function.iterate_succ_apply', tickByte_toNat, ih, Nat.sub_sub]

/-- `n` ticks of a running machine are `n` ticks of each timer and nothing else: a tick leaves the machine running. -/
theorem runCommands_replicate_tickTimers (n : Nat) {s : State} (h : s.fault = none) :
    runCommands (List.replicate n .tickTimers) s =
      .next ((s.setDt (tickByte^[n] s.dt)).setSt (tickByte^[n] s.st)) := by
  induction n generalizing s with
  | zero => rfl
  | succ n ih =>
    have hrun : ((s.setDt (tickByte s.dt)).setSt (tickByte s.st)).fault = none := h
    rw [List.replicate_succ, runCommands_cons_of_next (command_tickTimers_of_running h), ih hrun]
    rfl

theorem keyCommand_of_key (k : Reg) (p : Bool) {s : State} (h : s.fault = none) :
    keyCommand k.toNat p s = s.setKeyBit k p := by
  have hk : k.toNat ≤ 15 := Nat.le_of_lt_succ k.isLt
  rw [keyCommand, if_neg (Option.not_isSome_iff_eq_none.mpr h), if_pos hk, BitVec.ofNat_toNat, BitVec.setWidth_eq]

/-- A key number above 15 is refused, and a Faulted machine ignores the command (rules R187, R205). -/
theorem keyCommand_of_ignored {k : Nat} (p : Bool) {s : State} (h : 15 < k ∨ s.fault ≠ none) : keyCommand k p s = s := by
  by_cases hf : s.fault = none
  · have hk : ¬k ≤ 15 := Nat.not_le.mpr (h.resolve_right (not_not_intro hf))
    rw [keyCommand, if_neg (Option.not_isSome_iff_eq_none.mpr hf), if_neg hk]
  · rw [keyCommand, if_pos (Option.isSome_iff_ne_none.mpr hf)]

/-- A key write changes its one bit only. -/
theorem State.setKeyBit_frame (s : State) (k : Reg) (p : Bool) :
    (∀ q, (s.setKeyBit k p).key q = if q = k then p else s.key q) ∧
      s.setKeyBit k p = { s with keys := (s.setKeyBit k p).keys } ∧ SameMemory s (s.setKeyBit k p) :=
  ⟨fun q => s.key_setKeyBit k q p, rfl, State.byteAt_congr rfl rfl⟩

/-! ### The statements -/

/-- Settles O56: a run of `n` ticks is `n` ticks of each timer, by induction on `n`, and a timer's tick is `- 1` cut off
at 0. -/
theorem ticksLowerTimersToZero : Obligations.TicksLowerTimersToZero := by
  refine fun s => ⟨fun hf => ⟨?oneTick, fun n => ?nTicks⟩, command_tickTimers_of_faulted⟩
  case oneTick =>
    exact ⟨_, command_tickTimers_of_running hf, tickByte_toNat s.dt, tickByte_toNat s.st, rfl, State.byteAt_congr rfl rfl⟩
  case nTicks =>
    exact ⟨_, runCommands_replicate_tickTimers n hf, tickByte_iterate_toNat n s.dt, tickByte_iterate_toNat n s.st, rfl⟩

/-- Settles O49: a value up to 15 is a key's number and both are `skipIf` on that key, one on its negation; above 15 the
fault table names `KeyIndexOutOfRange`. -/
theorem keySkipsTestNumberedKey : Obligations.KeySkipsTestNumberedKey := by
  intro x
  refine ⟨encodes_x (p := 14) (q := 0x9E) (by decide) (by decide) x rfl fun w hop hkk => ?_,
    encodes_x (p := 14) (q := 0xA1) (by decide) (by decide) x rfl fun w hop hkk => ?_, fun s => ⟨fun k hk => ⟨?_, ?_⟩, ?_⟩⟩
  · simp only [decodeWord, hop, decodeE, hkk]
  · simp only [decodeWord, hop, decodeE, hkk]
  · exact exec_skip (exec_skipKey_of_key hk) rfl
  · exact exec_skip (exec_skipNokey_of_key hk) (by simp only [Bool.not_eq_true', ← Bool.not_eq_true, ite_not])
  · intro h
    exact ⟨exec_of_faultOf_some (if_pos h), exec_of_faultOf_some (if_pos h)⟩

/-- Settles O50: the scan finds no key exactly when none is pressed, and then `PC` goes back over the step's own advance; else
it finds the lowest. -/
theorem waitKeyStallsOrTakesLowestKey : Obligations.WaitKeyStallsOrTakesLowestKey := by
  intro x
  refine ⟨encodes_x (p := 15) (q := 0x0A) (by decide) (by decide) x rfl fun w hop hkk => ?_,
    fun s => ⟨fun hno => ⟨?stall, fun hf hp hd => ?wholeStep⟩, fun k hk hlow => ?taken⟩⟩
  · simp only [decodeWord, hop, decodeF, hkk]
  case stall => exact ⟨_, exec_waitKey_of_no_key x hno, rfl, rfl, State.byteAt_congr rfl rfl⟩
  case wholeStep =>
    calc step s = exec (.waitKey x) s.advance := cycle_of_instr hf hp hd
      _ = .next (s.advance.setPc s.advance.pc0) := exec_waitKey_of_no_key x hno
      _ = .next s := by rw [State.setPc_pc0_advance]
  case taken =>
    have hx : ((s.setReg x (k.setWidth 8)).reg x).toNat = k.toNat := by rw [State.reg_setReg_self, toNat_keyByte]
    exact ⟨_, exec_waitKey_of_lowest_key x hk hlow, hx, s.setReg_frame x _⟩

/-- Settles O51: the one write is `DT` into `V[x]`. -/
theorem loadDelayReadsTimer : Obligations.LoadDelayReadsTimer := by
  intro x
  refine ⟨encodes_x (p := 15) (q := 0x07) (by decide) (by decide) x rfl fun w hop hkk => ?_, fun s => ?_⟩
  · simp only [decodeWord, hop, decodeF, hkk]
  · exact ⟨_, rfl, s.reg_setReg_self x s.dt, s.setReg_frame x s.dt⟩

/-- Settles O52: each of the two is one timer write, `setDt` and `setSt` of `V[x]`. -/
theorem timerWritesSetOneTimer : Obligations.TimerWritesSetOneTimer := by
  intro x
  refine ⟨encodes_x (p := 15) (q := 0x15) (by decide) (by decide) x rfl fun w hop hkk => ?_,
    encodes_x (p := 15) (q := 0x18) (by decide) (by decide) x rfl fun w hop hkk => ?_, fun s => ⟨?_, ?_⟩⟩
  · simp only [decodeWord, hop, decodeF, hkk]
  · simp only [decodeWord, hop, decodeF, hkk]
  · exact ⟨s.setDt (s.reg x), rfl, s.setDt_dt _, rfl, State.byteAt_congr rfl rfl⟩
  · exact ⟨s.setSt (s.reg x), rfl, s.setSt_st _, rfl, State.byteAt_congr rfl rfl⟩

/-- Settles O57: an index up to 15 is a key and both commands write its one bit; the other indices and the Faulted machine are
the cases the commands refuse. -/
theorem keyCommandsSetOneBit : Obligations.KeyCommandsSetOneBit := by
  refine fun s k => ⟨?oneBit, fun h => ⟨?_, ?_⟩⟩
  case oneBit =>
    rintro j hf rfl
    exact ⟨⟨_, congrArg Host.Outcome.next (keyCommand_of_key j true hf), s.setKeyBit_frame j true⟩,
      ⟨_, congrArg Host.Outcome.next (keyCommand_of_key j false hf), s.setKeyBit_frame j false⟩⟩
  · exact congrArg Host.Outcome.next (keyCommand_of_ignored true h)
  · exact congrArg Host.Outcome.next (keyCommand_of_ignored false h)

end Sys2Proof.Machine
end

section
/-! SUPPORT. PROOFS of the statements about faults (spec 60_exceptions.md rules R200 to R205), with the lemmas they rest on: when
`exec` leaves the fault record alone, and what a Faulted machine makes of a command. -/

namespace Sys2Proof.Machine

/-! ### No fault but those of the table (rule R201) -/

/-- `return` with an `SP` above 15 has no slot to read and does not complete (log entry 4). -/
theorem exec_ret_of_no_slot {s : State} (h : 15 < s.sp.toNat) : exec .ret s = .fault (.noSuchStackSlot s.sp) := by
  have h0 : s.sp.toNat ≠ 0 := by omega
  exact (if_neg (mt (sp_eq_zero_iff s).mp h0)).trans (dif_neg (Nat.not_lt.mpr h))

theorem sp_le_of_exec_ret_next {s t : State} (h : exec .ret s = .next t) : s.sp.toNat ≤ 15 := by
  by_contra hsp
  rw [exec_ret_of_no_slot (Nat.lt_of_not_le hsp)] at h
  cases h

/-- An instruction that completes where the table names no fault leaves the fault record alone: a `return` that completes had
a slot. -/
theorem exec_next_fault_of_faultOf_none {i : Instr} {s t : State} (hf : faultOf i s = none) (he : exec i s = .next t) :
    t.fault = s.fault := by
  have hslot : i = .ret → s.sp.toNat ≤ 15 := fun hi => sp_le_of_exec_ret_next (hi ▸ he)
  obtain ⟨u, hu, hfu⟩ := execWith_of_faultOf_none (rb := Config.randomByte s.draws) hslot hf
  rw [exec_eq_execWith, hu] at he
  cases he
  exact hfu

/-! ### Commands to a Faulted machine (rule R205) -/

theorem loadProgramCommand_of_faulted (bytes : List Byte) {s : State} (h : s.fault ≠ none) :
    loadProgramCommand bytes s = s := if_pos (Option.isSome_iff_ne_none.mpr h)

theorem command_of_faulted {c : Command} {s : State} (h : s.fault ≠ none) (hc : c ≠ .reset) : command c s = .next s := by
  cases c with
  | reset => exact absurd rfl hc
  | loadProgram bytes => exact congrArg Host.Outcome.next (loadProgramCommand_of_faulted bytes h)
  | step rb => exact cycle_of_faulted h
  | tickTimers => exact command_tickTimers_of_faulted h
  | setKey k => exact congrArg Host.Outcome.next (keyCommand_of_ignored true (.inr h))
  | unsetKey k => exact congrArg Host.Outcome.next (keyCommand_of_ignored false (.inr h))
  | readBack => rfl

/-! ### The statements -/

/-- Settles O14: the fetch fault is one of the four ways a step can go; an instruction's fault is the table's, and what
completes without one keeps the record. -/
theorem faultsAreExactlyTheTable : Obligations.FaultsAreExactlyTheTable := by
  refine ⟨?codes, ?fetchFault, ?named, ?notNamed⟩
  case codes => exact ⟨rfl, rfl, rfl, rfl, rfl, rfl⟩
  case fetchFault => exact fun s hf hp => cycle_of_fetchFault hf hp
  case named => exact fun i s c w h => exec_of_faultOf_some h
  case notNamed => exact fun i s t hf he => exec_next_fault_of_faultOf_none hf he

/-- Settles O15: every command but `reset` tests the fault record before it writes, read-back copies it, and `reset` writes
it anew. -/
theorem faultedIgnoresAllButReset : Obligations.FaultedIgnoresAllButReset := by
  refine fun s hf => ⟨fun c hc => command_of_faulted hf hc, cycle_of_faulted hf, ?readBack, ?reset⟩
  case readBack => exact ⟨readBack s, rfl, readBack_fault s⟩
  case reset => exact ⟨resetCommand s, rfl, rfl⟩

end Sys2Proof.Machine
end

section
/-! SUPPORT. PROOFS of the statements about reset and loading (spec 70_reset_and_hazards.md rules R230 to R232), with the lemmas
they rest on: what memory holds after reset, what the two stores of `load_program` leave at an address, and which images it
accepts. -/

namespace Sys2Proof.Machine

/-! ### The font copy in memory (rules R31, R37) -/

theorem Memory.background_of_font (font : Vector Byte 80) (a : Fin 80) : Memory.background font a.val = font[a] :=
  dif_pos a.isLt

theorem Memory.background_of_ge (font : Vector Byte 80) {a : Nat} (h : 80 ≤ a) : Memory.background font a = 0#8 :=
  dif_neg (Nat.not_lt.mpr h)

/-- After reset every address reads as the reset contents of memory. -/
theorem byteAt_resetCommand (s : State) (a : Nat) : (resetCommand s).byteAt a = Memory.background s.config.font a := rfl

theorem State.fontBytes_length (s : State) : s.fontBytes.length = 80 := s.config.font.length_toList

theorem State.fontBytes_fit (s : State) : 0 + s.fontBytes.length ≤ Config.memSize := by
  rw [State.fontBytes_length]
  decide

theorem State.fontBytes_getElem? (s : State) (a : Fin 80) : s.fontBytes[a.val]? = some s.config.font[a] := by
  rw [State.fontBytes, Vector.getElem?_toList, Vector.getElem?_eq_getElem a.isLt, Fin.getElem_fin]

/-! ### Which images `load_program` accepts (rules R208, R232) -/

theorem fitsProgramArea_iff (bytes : List Byte) : fitsProgramArea bytes = true ↔ bytes.length ≤ 3584 :=
  decide_eq_true_iff

/-- A running machine loads an image that fits and keeps its state for one that does not. -/
theorem loadProgramCommand_of_running (bytes : List Byte) {s : State} (h : s.fault = none) :
    loadProgramCommand bytes s = if fitsProgramArea bytes then loadImage bytes s else s :=
  if_neg (Option.not_isSome_iff_eq_none.mpr h)

/-- A running machine reports an image that does not fit. -/
theorem response_loadProgram_of_running (bytes : List Byte) {s : State} (h : s.fault = none) :
    response (.loadProgram bytes) s = if fitsProgramArea bytes then .done else .programTooLarge := by
  cases hfit : fitsProgramArea bytes <;> simp [response, h, hfit]

/-! ### What the image and the font leave at an address (rule R232) -/

section LoadImage
variable {bytes : List Byte} {s : State} (hwf : Memory.wf s.config.font s.memory)
include hwf

/-- Memory is in canonical form between the two stores too. -/
theorem wf_storeImage :
    Memory.wf (s.storeBytes Config.progBase bytes).config.font (s.storeBytes Config.progBase bytes).memory := by
  rw [State.storeBytes_config]
  exact State.wf_storeBytes bytes hwf Config.progBase

/-- The font is written last, so it stands at 0 to 79 whatever the image. -/
theorem byteAt_loadImage_font (a : Fin 80) : (loadImage bytes s).byteAt a.val = s.config.font[a] := by
  have hfont := State.byteAt_storeBytes_of_getElem? (wf_storeImage (bytes := bytes) hwf) s.fontBytes_fit
    (s.fontBytes_getElem? a)
  rwa [Nat.zero_add] at hfont

/-- Above the font only the store of the image counts. -/
theorem byteAt_loadImage_above_font {a : Nat} (ha : 80 ≤ a) :
    (loadImage bytes s).byteAt a = (s.storeBytes Config.progBase bytes).byteAt a := by
  refine State.byteAt_storeBytes_outside (wf_storeImage hwf) s.fontBytes_fit (.inr ?_)
  rwa [State.fontBytes_length]

end LoadImage

/-! ### The statements -/

/-- Settles O55: the image lies above the font, so each byte is decided by one of the two stores; an image that does not fit
and a Faulted machine are the cases in which the command keeps the state. -/
theorem loadProgramWritesImageAndFont : Obligations.LoadProgramWritesImageAndFont := by
  refine fun s bytes => ⟨fun hf hwf hlen => ?fits, fun hf hlen => ?tooLarge, fun hf => ?faulted⟩
  case fits =>
    have hfit : fitsProgramArea bytes = true := (fitsProgramArea_iff bytes).mpr hlen
    have hrange : Config.progBase + bytes.length ≤ Config.memSize := Nat.add_le_add_left hlen 0x200
    refine ⟨loadImage bytes s, ?_, ?_, fun k hk => ?image, byteAt_loadImage_font hwf, fun a ha hout => ?others,
      loadImage_eq bytes s⟩
    · exact congrArg Host.Outcome.next ((loadProgramCommand_of_running bytes hf).trans (if_pos hfit))
    · exact (response_loadProgram_of_running bytes hf).trans (if_pos hfit)
    case image =>
      rw [byteAt_loadImage_above_font hwf (by omega), State.byteAt_storeBytes bytes hwf _ hrange,
        if_pos ⟨Nat.le_add_right _ k, Nat.add_lt_add_left hk _⟩, Nat.add_sub_cancel_left]
    case others =>
      rw [byteAt_loadImage_above_font hwf ha]
      exact State.byteAt_storeBytes_outside hwf hrange hout
  case tooLarge =>
    have hfit : ¬fitsProgramArea bytes = true := mt (fitsProgramArea_iff bytes).mp (Nat.not_le.mpr hlen)
    exact ⟨congrArg Host.Outcome.next ((loadProgramCommand_of_running bytes hf).trans (if_neg hfit)),
      (response_loadProgram_of_running bytes hf).trans (if_neg hfit)⟩
  case faulted => exact command_of_faulted hf Command.noConfusion

/-- Settles O53: `reset` builds its state from the configuration alone, with nothing listed in memory. -/
theorem resetCommandSetsEveryField : Obligations.ResetCommandSetsEveryField := by
  refine fun s => ⟨resetCommand s, rfl, rfl, fun r => ?registers, rfl, rfl, rfl, fun k => ?stack, rfl, rfl, fun a => ?font,
    fun a ha _ => ?rest, ?cells, fun b hb => ?off, fun k => ?keys, rfl⟩
  case registers => exact Vector.getElem_replicate r.isLt
  case stack => exact Vector.getElem_replicate k.isLt
  case font => rw [byteAt_resetCommand, Memory.background_of_font]
  case rest => rw [byteAt_resetCommand, Memory.background_of_ge _ ha]
  case cells => exact List.length_replicate
  case off => exact List.eq_of_mem_replicate hb
  case keys => exact Vector.getElem_replicate k.isLt

/-- Settles O54: `reset` differs from power-on in the draw count only, and the core's state after reset is the power-on state
of the default configuration. -/
theorem powerOnIsStateAfterReset : Obligations.PowerOnIsStateAfterReset := by
  refine fun s => ⟨resetCommand s, rfl, rfl, fun hc => ?_⟩
  calc { resetCommand s with draws := State.reset.draws } = State.resetWith s.config := rfl
    _ = State.resetWith State.reset.config := by rw [hc]
    _ = State.reset := rfl

end Sys2Proof.Machine
end

section
/-! SUPPORT. PROOFS of the statements about the encoding (spec 30_encoding.md rules R70 to R83), with the lemmas they rest on:
the word a decoded word's fields make, the bits a row of the opcode map fixes, and the words no row selects. -/

namespace Sys2Proof

/-! ### Decode after encode (rule R82) -/

/-- Reading the two bytes of an encoded instruction is decoding its word, whatever follows them (rules R52, R70). -/
theorem decodeBytes_encodeBytes {i : Instr} (h : decodeWord (encode i) = .instr i) (rest : List Byte) :
    decodeBytes (encodeBytes i ++ rest) = .ok (i, rest) := by
  simp only [encodeBytes, List.cons_append, List.nil_append, decodeBytes, wordOfBytes_high_low, h]

/-! ### Encode after decode (rule R82): a word is its opcode's bits OR-ed with its own fields, one lemma per format -/

/-- Format A: an instruction made of the opcode and the address field of `w` encodes to `w`. -/
theorem encode_fields_nnn {f : Imm12 → Instr} {w : Word} {p : Nat} (hop : (fieldOp w).toNat = p)
    (he : encode (f (fieldNNN w)) = BitVec.ofNat 16 (4096 * p) ||| placeNNN (fieldNNN w)) :
    encode (f (fieldNNN w)) = w := by
  have hw := w.isLt
  rw [fieldOp_toNat] at hop
  apply BitVec.eq_of_toNat_eq
  rw [he, encode_toNat_nnn p (by omega), fieldNNN_toNat]; omega

/-- Format XK. -/
theorem encode_fields_xkk {f : Reg → Byte → Instr} {w : Word} {p : Nat} (hop : (fieldOp w).toNat = p)
    (he : encode (f (fieldX w) (fieldKK w)) = BitVec.ofNat 16 (4096 * p) ||| placeX (fieldX w) ||| placeKK (fieldKK w)) :
    encode (f (fieldX w) (fieldKK w)) = w := by
  have hw := w.isLt
  rw [fieldOp_toNat] at hop
  apply BitVec.eq_of_toNat_eq
  rw [he, encode_toNat_xkk p (by omega), fieldX_toNat, fieldKK_toNat]; omega

/-- Formats XY and XS. -/
theorem encode_fields_xy {f : Reg → Reg → Instr} {w : Word} {p q : Nat} (hop : (fieldOp w).toNat = p)
    (hn : (fieldN w).toNat = q)
    (he : encode (f (fieldX w) (fieldY w)) = BitVec.ofNat 16 (4096 * p + q) ||| placeX (fieldX w) ||| placeY (fieldY w)) :
    encode (f (fieldX w) (fieldY w)) = w := by
  have hw := w.isLt
  rw [fieldOp_toNat] at hop
  rw [fieldN_toNat] at hn
  apply BitVec.eq_of_toNat_eq
  rw [he, encode_toNat_xyn p q (by omega) (by omega), fieldX_toNat, fieldY_toNat]; omega

/-- Format XYN. -/
theorem encode_fields_draw {w : Word} (hop : (fieldOp w).toNat = 0xD) :
    encode (.draw (fieldX w) (fieldY w) (fieldN w)) = w := by
  have hw := w.isLt
  have henc := encode_toNat_draw 0xD (by decide) (fieldX w) (fieldY w) (fieldN w)
  rw [fieldOp_toNat] at hop
  rw [fieldX_toNat, fieldY_toNat, fieldN_toNat] at henc
  exact BitVec.eq_of_toNat_eq (henc.trans (by omega))

/-- Format X. -/
theorem encode_fields_x {f : Reg → Instr} {w : Word} {p q : Nat} (hop : (fieldOp w).toNat = p)
    (hkk : (fieldKK w).toNat = q) (he : encode (f (fieldX w)) = BitVec.ofNat 16 (4096 * p + q) ||| placeX (fieldX w)) :
    encode (f (fieldX w)) = w := by
  have hw := w.isLt
  rw [fieldOp_toNat] at hop
  rw [fieldKK_toNat] at hkk
  apply BitVec.eq_of_toNat_eq
  rw [he, encode_toNat_x p q (by omega) (by omega), fieldX_toNat]; omega

theorem encode_of_decode0 {w : Word} {i : Instr} (h : decode0 w = .instr i) : encode i = w := by
  unfold decode0 at h
  split at h
  next hw => cases h; exact hw.symm
  next =>
    split at h
    next hw => cases h; exact hw.symm
    next => cases h

theorem encode_of_decode8 {w : Word} {i : Instr} (hop : (fieldOp w).toNat = 0x8) (h : decode8 w = .instr i) :
    encode i = w := by
  unfold decode8 at h
  split at h
  all_goals cases h
  all_goals rename_i hn; exact encode_fields_xy hop hn rfl

theorem encode_of_decodeE {w : Word} {i : Instr} (hop : (fieldOp w).toNat = 0xE) (h : decodeE w = .instr i) :
    encode i = w := by
  unfold decodeE at h
  split at h
  all_goals cases h
  all_goals rename_i hkk; exact encode_fields_x hop hkk rfl

theorem encode_of_decodeF {w : Word} {i : Instr} (hop : (fieldOp w).toNat = 0xF) (h : decodeF w = .instr i) :
    encode i = w := by
  unfold decodeF at h
  split at h
  all_goals cases h
  all_goals rename_i hkk; exact encode_fields_x hop hkk rfl

/-- The opcodes 5 and 9 with the last nibble fixed at 0 read as `f` of the fields `x` and `y`. -/
theorem encode_of_ite_fieldN {w : Word} {f : Reg → Reg → Instr} {i : Instr} {p : Nat} (hop : (fieldOp w).toNat = p)
    (hf : ∀ x y, encode (f x y) = BitVec.ofNat 16 (4096 * p) ||| placeX x ||| placeY y)
    (h : (if fieldN w = 0#4 then .instr (f (fieldX w) (fieldY w)) else .unknown w) = Decoded.instr i) :
    encode i = w := by
  split at h
  next hn => cases h; exact encode_fields_xy hop (congrArg BitVec.toNat hn) (hf _ _)
  next => cases h

/-- Every word the decoder reads as an instruction is that instruction's word: the fields it reads are put back where they
were. -/
theorem encode_of_decodeWord {w : Word} {i : Instr} (h : decodeWord w = .instr i) : encode i = w := by
  unfold decodeWord at h
  split at h
  next => exact encode_of_decode0 h
  next hop => cases h; exact encode_fields_nnn hop rfl
  next hop => cases h; exact encode_fields_nnn hop rfl
  next hop => cases h; exact encode_fields_xkk hop rfl
  next hop => cases h; exact encode_fields_xkk hop rfl
  next hop => exact encode_of_ite_fieldN hop (fun _ _ => rfl) h
  next hop => cases h; exact encode_fields_xkk hop rfl
  next hop => cases h; exact encode_fields_xkk hop rfl
  next hop => exact encode_of_decode8 hop h
  next hop => exact encode_of_ite_fieldN hop (fun _ _ => rfl) h
  next hop => cases h; exact encode_fields_nnn hop rfl
  next hop => cases h; exact encode_fields_nnn hop rfl
  next hop => cases h; exact encode_fields_xkk hop rfl
  next hop => cases h; exact encode_fields_draw hop
  next hop => exact encode_of_decodeE hop h
  next hop => exact encode_of_decodeF hop h
  next => cases h

/-! ### The operand fields lie outside the bits a row fixes (rules R71, R74) -/

@[simp] theorem placeX_and_F000 (x : Reg) : placeX x &&& 0xF000#16 = 0#16 := by revert x; decide
@[simp] theorem placeX_and_F00F (x : Reg) : placeX x &&& 0xF00F#16 = 0#16 := by revert x; decide
@[simp] theorem placeX_and_F0FF (x : Reg) : placeX x &&& 0xF0FF#16 = 0#16 := by revert x; decide
@[simp] theorem placeY_and_F000 (y : Reg) : placeY y &&& 0xF000#16 = 0#16 := by revert y; decide
@[simp] theorem placeY_and_F00F (y : Reg) : placeY y &&& 0xF00F#16 = 0#16 := by revert y; decide
@[simp] theorem placeN_and_F000 (n : Nibble) : placeN n &&& 0xF000#16 = 0#16 := by revert n; decide

/-- A value of at most 12 bits has no bit in the opcode. -/
theorem setWidth_and_F000 {k : Nat} (hk : k ≤ 12) (v : BitVec k) : v.setWidth 16 &&& 0xF000#16 = 0#16 := by
  apply BitVec.eq_of_getLsbD_eq
  intro j hj
  have hv : 12 ≤ j → v.getLsbD j = false := fun h => BitVec.getLsbD_of_ge v j (hk.trans h)
  have hm : j < 12 → (0xF000#16).getLsbD j = false := fun h => by interval_cases j <;> rfl
  by_cases h : j < 12
  · simp [hm h]
  · simp [hv (by omega)]

@[simp] theorem placeKK_and_F000 (kk : Byte) : placeKK kk &&& 0xF000#16 = 0#16 := setWidth_and_F000 (by decide) kk
@[simp] theorem placeNNN_and_F000 (nnn : Imm12) : placeNNN nnn &&& 0xF000#16 = 0#16 := setWidth_and_F000 (by decide) nnn

/-- The map has a row for every instruction, and it selects the instruction's word: the opcode's bits survive the mask and
the operands do not. -/
theorem exists_row_selects_encode (i : Instr) :
    ∃ r, (opcodeTable.find? fun r => r.mnemonic == i.mnemonic) = some r ∧ r.selects (encode i) = true := by
  cases i
  all_goals refine ⟨_, rfl, ?_⟩
  all_goals simp [Row.selects, encode, BitVec.and_or_distrib_right]

theorem nibble_and_allOnes (v : BitVec 4) : v &&& 15#4 = v := BitVec.and_allOnes

theorem byte_and_allOnes (v : Byte) : v &&& 255#8 = v := BitVec.and_allOnes

theorem word_and_allOnes (w : Word) : w &&& 65535#16 = w := BitVec.and_allOnes

/-- A row that selects a word agrees with it on the fixed bits of the word and of each field the decoder dispatches on. -/
theorem Row.fields_of_selects {r : Row} {w : Word} (h : r.selects w = true) :
    w &&& r.mask = r.pattern ∧ fieldOp w &&& r.mask.extractLsb' 12 4 = r.pattern.extractLsb' 12 4 ∧
      fieldN w &&& r.mask.extractLsb' 0 4 = r.pattern.extractLsb' 0 4 ∧
      fieldKK w &&& r.mask.extractLsb' 0 8 = r.pattern.extractLsb' 0 8 := by
  have hw : w &&& r.mask = r.pattern := eq_of_beq h
  refine ⟨hw, ?_⟩
  rw [← hw]
  exact ⟨BitVec.extractLsb'_and.symm, BitVec.extractLsb'_and.symm, BitVec.extractLsb'_and.symm⟩

/-- Row by row: the fixed bits of the row lead the decoder to the row's instruction. -/
theorem decodeWord_of_selects {r : Row} (hr : r ∈ opcodeTable) {w : Word} (h : r.selects w = true) :
    ∃ i, decodeWord w = .instr i ∧ i.mnemonic = r.mnemonic := by
  obtain ⟨hw, hop, hn, hkk⟩ := Row.fields_of_selects h
  fin_cases hr
  all_goals simp only [word_and_allOnes] at hw
  · exact ⟨.clear, by rw [hw]; rfl, rfl⟩
  · exact ⟨.ret, by rw [hw]; rfl, rfl⟩
  all_goals simp only [BitVec.reduceExtractLsb', BitVec.and_zero, nibble_and_allOnes, byte_and_allOnes] at hop hn hkk
  all_goals simp [decodeWord, decode8, decodeE, decodeF, Instr.mnemonic, hop, hn, hkk]

end Sys2Proof

namespace Sys2Proof.Machine

/-! ### Every instruction's own word -/

/-- `Encodes` from a number, said of the encoder's own word. -/
theorem decodeWord_encode_of_encodes {n : Nat} {i : Instr} (h : Encodes n i) : decodeWord (encode i) = .instr i := by
  obtain ⟨hdec, rfl⟩ := h
  rwa [BitVec.ofNat_toNat, BitVec.setWidth_eq] at hdec

/-- The word of every instruction, as the statement of that instruction's rule has it. -/
theorem exists_encodes (i : Instr) : ∃ n, Encodes n i := by
  cases i with
  | clear => exact ⟨_, clearTurnsEveryCellOff.1⟩
  | ret => exact ⟨_, returnPopsReturnAddress.1⟩
  | jump nnn => exact ⟨_, (jumpSetsPc nnn).1⟩
  | call nnn => exact ⟨_, (callPushesReturnAddress nnn).1⟩
  | skipEqImm x kk => exact ⟨_, (immediateSkips x kk).1⟩
  | skipNeImm x kk => exact ⟨_, (immediateSkips x kk).2.1⟩
  | skipEqReg x y => exact ⟨_, (registerSkips x y).1⟩
  | loadImm x kk => exact ⟨_, (loadImmSetsRegister x kk).1⟩
  | addImm x kk => exact ⟨_, (addImmWrapsWithoutFlag x kk).1⟩
  | move x y => exact ⟨_, (moveAndBitwiseWriteDestinationOnly x y).1⟩
  | or x y =>
    obtain ⟨-, hor, -⟩ := moveAndBitwiseWriteDestinationOnly x y
    exact ⟨_, hor⟩
  | and x y =>
    obtain ⟨-, -, hand, -⟩ := moveAndBitwiseWriteDestinationOnly x y
    exact ⟨_, hand⟩
  | xor x y =>
    obtain ⟨-, -, -, hxor, -⟩ := moveAndBitwiseWriteDestinationOnly x y
    exact ⟨_, hxor⟩
  | add x y => exact ⟨_, (addSetsCarry x y).1⟩
  | sub x y => exact ⟨_, (subtractSetsNoBorrow x y).1⟩
  | shr x y => exact ⟨_, (shrMovesLowBitToFlag x y).1⟩
  | subn x y => exact ⟨_, (subtractSetsNoBorrow x y).2.1⟩
  | shl x y => exact ⟨_, (shlMovesHighBitToFlag x y).1⟩
  | skipNeReg x y => exact ⟨_, (registerSkips x y).2.1⟩
  | loadIndex nnn => exact ⟨_, (indexInstructionsSetI.1 nnn).1⟩
  | jumpOffset nnn => exact ⟨_, (jumpOffsetAddsV0 nnn).1⟩
  | rand x kk => exact ⟨_, (randMasksTheRandomByte x kk).1⟩
  | draw x y n => exact ⟨_, encodes_draw x y n⟩
  | skipKey x => exact ⟨_, (keySkipsTestNumberedKey x).1⟩
  | skipNokey x => exact ⟨_, (keySkipsTestNumberedKey x).2.1⟩
  | loadDelay x => exact ⟨_, (loadDelayReadsTimer x).1⟩
  | waitKey x => exact ⟨_, (waitKeyStallsOrTakesLowestKey x).1⟩
  | setDelay x => exact ⟨_, (timerWritesSetOneTimer x).1⟩
  | setSound x => exact ⟨_, (timerWritesSetOneTimer x).2.1⟩
  | addIndex x => exact ⟨_, (indexInstructionsSetI.2.1 x).1⟩
  | fontAddr x => exact ⟨_, (indexInstructionsSetI.2.2 x).1⟩
  | bcd x => exact ⟨_, (bcdStoresThreeDigits x).1⟩
  | storeRegs x => exact ⟨_, (storeRegsCopiesRangeToMemory x).1⟩
  | loadRegs x => exact ⟨_, (loadRegsCopiesRangeFromMemory x).1⟩

/-- Decoding an encoded instruction gives it back. -/
theorem decodeWord_encode (i : Instr) : decodeWord (encode i) = .instr i := by
  obtain ⟨n, hn⟩ := exists_encodes i
  exact decodeWord_encode_of_encodes hn

/-! ### The words no row selects (rule R75) -/

theorem unlisted_of_decode0 {u w : Word} (h : decode0 w = .unknown u) : w.toNat ≠ 0x00E0 ∧ w.toNat ≠ 0x00EE := by
  unfold decode0 at h
  split at h
  next => cases h
  next hclear =>
    split at h
    next => cases h
    next hret => exact ⟨fun e => hclear (BitVec.eq_of_toNat_eq e), fun e => hret (BitVec.eq_of_toNat_eq e)⟩

theorem unlisted_of_decode8 {u w : Word} (h : decode8 w = .unknown u) :
    [0x8, 0x9, 0xA, 0xB, 0xC, 0xD, 0xF].contains (w.toNat % 0x10) = true := by
  unfold decode8 at h
  rw [fieldN_toNat] at h
  have hlt : w.toNat % 0x10 < 0x10 := Nat.mod_lt _ (by decide)
  generalize w.toNat % 0x10 = n at h hlt ⊢
  split at h
  case h_10 => interval_cases n <;> simp_all
  all_goals cases h

theorem unlisted_of_decodeE {u w : Word} (h : decodeE w = .unknown u) :
    (!([0x9E, 0xA1].contains (w.toNat % 0x100))) = true := by
  unfold decodeE at h
  rw [fieldKK_toNat] at h
  split at h
  case h_3 h1 h2 => simp_all
  all_goals cases h

theorem unlisted_of_decodeF {u w : Word} (h : decodeF w = .unknown u) :
    (!([0x07, 0x0A, 0x15, 0x18, 0x1E, 0x29, 0x33, 0x55, 0x65].contains (w.toNat % 0x100))) = true := by
  unfold decodeF at h
  rw [fieldKK_toNat] at h
  split at h
  case h_10 => simp_all
  all_goals cases h

theorem unlisted_of_ite_fieldN {u w : Word} {i : Instr}
    (h : (if fieldN w = 0#4 then .instr i else .unknown w) = Decoded.unknown u) : (w.toNat % 0x10 != 0) = true := by
  split at h
  next => cases h
  next hn =>
    rw [bne_iff_ne, ← fieldN_toNat]
    exact fun e => hn (BitVec.eq_of_toNat_eq e)

/-- A word that decodes to no instruction is in rule R75's list: each `unknown` the decoder answers is one entry of it. -/
theorem unrecognized_of_decodeWord {u w : Word} (h : decodeWord w = .unknown u) : unrecognized w.toNat = true := by
  unfold decodeWord at h
  rw [fieldOp_toNat] at h
  have hlt : w.toNat / 0x1000 < 0x10 := by have := w.isLt; omega
  split at h
  case h_1 hop => simp [unrecognized, hop, unlisted_of_decode0 h]
  case h_6 hop => simp only [unrecognized, hop, unlisted_of_ite_fieldN h]
  case h_9 hop => simp only [unrecognized, hop, unlisted_of_decode8 h]
  case h_10 hop => simp only [unrecognized, hop, unlisted_of_ite_fieldN h]
  case h_15 hop => simp only [unrecognized, hop, unlisted_of_decodeE h]
  case h_16 hop => simp only [unrecognized, hop, unlisted_of_decodeF h]
  case h_17 => interval_cases w.toNat / 0x1000 <;> contradiction
  all_goals cases h

/-! ### The statements -/

/-- Settles O2: every instruction's word is known with its rule, and its two bytes read back as that word. -/
theorem decodeEncodeReturnsInstruction : Obligations.DecodeEncodeReturnsInstruction :=
  fun i => ⟨decodeWord_encode i, decodeBytes_encodeBytes (decodeWord_encode i)⟩

/-- Settles O3: branch by branch of the decoder, the opcode and the fields read make up the word. -/
theorem encodeDecodeReturnsWord : Obligations.EncodeDecodeReturnsWord :=
  fun _ _ h => encode_of_decodeWord h

/-- Settles O4: a decoded word is its instruction's own, which the instruction's row selects; and the fixed bits of every row
lead the decoder to that row's instruction. -/
theorem decoderFollowsOpcodeMap : Obligations.DecoderFollowsOpcodeMap := by
  refine fun w => ⟨fun i hi => ?_, fun r hr h => decodeWord_of_selects hr h⟩
  obtain ⟨r, hfind, hsel⟩ := exists_row_selects_encode i
  have hm := List.find?_some hfind
  rw [encode_of_decodeWord hi] at hsel
  exact ⟨r, List.mem_of_find?_eq_some hfind, hsel, eq_of_beq hm⟩

/-- Settles O5: a listed word reaches an `unknown` of the decoder, and every `unknown` of the decoder is listed. -/
theorem unrecognizedWordsAreExactlyListed : Obligations.UnrecognizedWordsAreExactlyListed := by
  intro w
  split
  next h => exact decodeWord_of_unrecognized h
  next h =>
    cases hd : decodeWord w with
    | instr i => exact ⟨i, rfl⟩
    | unknown u => exact absurd (unrecognized_of_decodeWord hd) h

/-- Settles O1: the decoder computes each of the eight words. -/
theorem workedEncodingsDecode : Obligations.WorkedEncodingsDecode :=
  ⟨rfl, rfl, rfl, rfl, rfl, rfl, rfl, rfl⟩

end Sys2Proof.Machine
end

section
/-! SUPPORT. PROOFS of the statements about every instruction and every run (spec 10_state.md sections 1 to 8 and 14), with
the lemmas they rest on: the one write an instruction without a fault makes (`Effect`), and what each such write does to a
field and to the invariant of rule R38. -/

namespace Sys2Proof.Machine

/-! ### What an instruction without a fault leaves -/

/-- The one write each family of instructions makes, on a state whose `PC` is already advanced: which instructions make it,
and what is kept of the registers, of `PC`'s range and of the form of memory. -/
inductive Effect (s : State) : Instr → State → Prop where
  | registers {i : Instr} (v : Vector Byte 16)
      (hreg : ∀ r, mayWriteReg i r = false → State.reg { s with v := v } r = s.reg r) : Effect s i { s with v := v }
  | rand (rb : Byte) (x : Reg) (kk : Byte) : Effect s (.rand x kk) (randWith rb x kk s)
  | pc {i : Instr} (q : Word) (hi : mayWritePc i = true)
      (hq : 2 ≤ s.pc.toNat → s.pc.toNat ≤ 0x1000 → q.toNat ≤ 0x10FE) : Effect s i (s.setPc q)
  | call (nnn : Imm12) (h : s.sp.toNat < 15) : Effect s (.call nnn) ((s.push h).setPc (zextImm nnn))
  | ret (h0 : s.sp.toNat ≠ 0) (h : s.sp.toNat < 16) : Effect s .ret (s.pop h)
  | index {i : Instr} (w : Word)
      (hi : (∃ nnn, i = .loadIndex nnn) ∨ (∃ x, i = .addIndex x) ∨ ∃ x, i = .fontAddr x) : Effect s i (s.setI w)
  | setDelay (x : Reg) : Effect s (.setDelay x) (s.setDt (s.reg x))
  | setSound (x : Reg) : Effect s (.setSound x) (s.setSt (s.reg x))
  | memory {i : Instr} (m : Memory) (hi : (∃ x, i = .bcd x) ∨ ∃ x, i = .storeRegs x)
      (hm : Memory.wf s.config.font s.memory → Memory.wf s.config.font m) : Effect s i { s with memory := m }
  | clear : Effect s .clear (s.setFb (List.replicate (s.config.width * s.config.height) false))
  | draw (x y : Reg) (n : Nibble) :
      Effect s (.draw x y n) ((s.setFb (spritePlot x y n s).1).setFlag (spritePlot x y n s).2)

section Families
variable {s : State} {i : Instr}

/-- One register written, the destination. -/
theorem Effect.of_setReg (x : Reg) (b : Byte) (hi : ∀ r, mayWriteReg i r = (r == x)) : Effect s i (s.setReg x b) := by
  refine .registers _ fun r hr => (s.reg_setReg x r b).trans (if_neg ?_)
  rw [hi] at hr
  exact ne_of_beq_false hr

/-- The destination and `VF` written. -/
theorem Effect.of_flagWrite {t : State} {x : Reg} (hi : ∀ r, mayWriteReg i r = (r == x || r == vf))
    (ht : (∀ r, r ≠ x → r ≠ vf → t.reg r = s.reg r) ∧ t = { s with v := t.v } ∧ SameMemory s t) : Effect s i t := by
  obtain ⟨hreg, heq, -⟩ := ht
  rw [heq]
  refine .registers _ fun r hr => ?_
  rw [hi, Bool.or_eq_false_iff] at hr
  exact hreg r (ne_of_beq_false hr.1) (ne_of_beq_false hr.2)

/-- A skip advances `PC` at most once more (rule R108). -/
theorem Effect.of_skipIf (c : Bool) (hi : mayWritePc i = true) : Effect s i (skipIf c s) := by
  rw [skipIf_eq]
  refine .pc _ hi fun _ hhi => ?_
  have htwo : (2#16 : Word).toNat = 2 := rfl
  split
  · rw [BitVec.toNat_add, htwo]; omega
  · omega

/-- Byte stores keep the canonical form. -/
theorem Effect.of_storeBytes (a : Nat) (bs : List Byte) (hi : (∃ x, i = .bcd x) ∨ ∃ x, i = .storeRegs x) :
    Effect s i (s.storeBytes a bs) := by
  rw [State.storeBytes_eq]
  exact .memory _ hi fun h => State.wf_storeBytes bs h a

theorem Effect.of_loadRegs (x : Reg) : Effect s (.loadRegs x) (s.setRegs 0 (s.loadBytes s.base (regCount x))) := by
  have hcount : regCount x ≤ 16 := x.isLt
  have hframe := s.setRegs_eq (s.loadBytes s.base (regCount x)) 0
  rw [hframe]
  refine .registers _ fun r hr => ?_
  have hrx : ¬r.toNat < regCount x := fun h => of_decide_eq_false hr (Nat.le_of_lt_succ h)
  rw [← hframe, State.reg_setRegs_loadBytes s s.base hcount, if_neg hrx]

theorem Effect.of_waitKey (x : Reg) {t : State} (he : exec (.waitKey x) s = .next t) : Effect s (.waitKey x) t := by
  simp only [exec, execWaitKey] at he
  cases hk : s.firstPressed with
  | none =>
    rw [hk] at he
    cases he
    refine .pc _ rfl fun hlo hhi => ?_
    have htwo : (2#16 : Word).toNat = 2 := rfl
    rw [State.pc0, BitVec.toNat_sub, htwo]; omega
  | some k =>
    rw [hk] at he
    cases he
    exact .of_setReg x _ fun _ => rfl

end Families

/-- An instruction for which the table of rule R201 names no fault makes the write of its family, whatever the random
byte. -/
theorem effect_of_execWith {rb : Byte} {i : Instr} {s t : State} (hf : faultOf i s = none)
    (he : execWith rb i s = .next t) : Effect s i t := by
  cases i with
  | clear => cases he; exact .clear
  | ret =>
    have hsp : s.sp.toNat ≠ 0 := by simpa [faultOf] using hf
    have hslot : s.sp.toNat < 16 := Nat.lt_succ_of_le (sp_le_of_exec_ret_next he)
    cases he.symm.trans (exec_ret_of_slot hsp hslot)
    exact .ret hsp hslot
  | jump nnn =>
    cases he
    refine .pc _ rfl fun _ _ => ?_
    have hn := nnn.isLt
    rw [zextImm_toNat]; omega
  | call nnn =>
    have hsp : s.sp.toNat < 15 := by simpa [faultOf] using hf
    cases he.symm.trans (exec_call_of_lt nnn hsp)
    exact .call nnn hsp
  | jumpOffset nnn =>
    cases he
    refine .pc _ rfl fun _ _ => ?_
    have hn := nnn.isLt
    have hv := (s.reg 0#4).isLt
    rw [zextImm_add_zextByte_toNat]; omega
  | skipEqImm x kk | skipNeImm x kk | skipEqReg x y | skipNeReg x y => cases he; exact .of_skipIf _ rfl
  | skipKey x | skipNokey x =>
    have hk : (s.reg x).toNat ≤ 15 := by simpa [faultOf] using hf
    simp only [execWith, exec, execSkipKey, execSkipNokey, keyNumber_some hk] at he
    cases he
    exact .of_skipIf _ rfl
  | loadImm x kk | addImm x kk | move x y | or x y | and x y | xor x y | loadDelay x =>
    cases he
    exact .of_setReg x _ fun _ => rfl
  | add x y | sub x y | subn x y => cases he; exact .of_flagWrite (fun _ => rfl) (aluWriteThenFlag_frame rfl x s)
  | shr x y | shl x y => cases he; exact .of_flagWrite (fun _ => rfl) (aluFlagThenWrite_frame rfl)
  | rand x kk => cases he; exact .rand rb x kk
  | waitKey x => exact .of_waitKey x he
  | loadIndex nnn => cases he; exact .index _ (.inl ⟨nnn, rfl⟩)
  | addIndex x => cases he; exact .index _ (.inr (.inl ⟨x, rfl⟩))
  | fontAddr x => cases he; exact .index _ (.inr (.inr ⟨x, rfl⟩))
  | setDelay x => cases he; exact .setDelay x
  | setSound x => cases he; exact .setSound x
  | bcd x =>
    have hb : s.base + 2 ≤ 0xFFF := by simpa [faultOf, State.base] using hf
    cases he.symm.trans (exec_bcd_of_le x hb)
    exact .of_storeBytes _ _ (.inl ⟨x, rfl⟩)
  | storeRegs x =>
    have hb : s.base + x.toNat ≤ 0xFFF := by simpa [faultOf, State.base] using hf
    cases he.symm.trans (exec_storeRegs_of_le hb)
    exact .of_storeBytes _ _ (.inr ⟨x, rfl⟩)
  | loadRegs x =>
    have hb : s.base + x.toNat ≤ 0xFFF := by simpa [faultOf, State.base] using hf
    cases he.symm.trans (exec_loadRegs_of_le hb)
    exact .of_loadRegs x
  | draw x y n =>
    have hb : s.base + n.toNat ≤ 0x1000 := by simpa [faultOf, State.base] using hf
    cases he.symm.trans (exec_draw_of_le x y hb)
    exact .draw x y n

/-- Everything an instruction that goes to a next state can do: the fault of the table, or the write of its family. -/
theorem execWith_next_cases {rb : Byte} {i : Instr} {s t : State} (he : execWith rb i s = .next t) :
    (∃ c w, faultOf i s = some (c, w) ∧ t = FaultedState c w s) ∨ (faultOf i s = none ∧ Effect s i t) := by
  cases hf : faultOf i s with
  | none => exact .inr ⟨rfl, effect_of_execWith hf he⟩
  | some f =>
    obtain ⟨c, w⟩ := f
    cases he.symm.trans (execWith_of_faultOf_some hf)
    exact .inl ⟨c, w, rfl, rfl⟩

/-! ### Field by field: which family writes it -/

section Fields
variable {s t : State} {i : Instr}

theorem Effect.config_eq (h : Effect s i t) : t.config = s.config := by cases h <;> rfl

theorem Effect.keys_eq (h : Effect s i t) : t.keys = s.keys := by cases h <;> rfl

theorem Effect.fault_eq (h : Effect s i t) : t.fault = s.fault := by cases h <;> rfl

theorem Effect.reg_eq (h : Effect s i t) {r : Reg} (hr : mayWriteReg i r = false) : t.reg r = s.reg r := by
  cases h with
  | registers v hreg => exact hreg r hr
  | rand rb x kk => exact reg_randWith_of_ne rb kk s (ne_of_beq_false hr)
  | draw x y n =>
    rw [State.reg_setFlag, if_neg (ne_of_beq_false hr)]
    rfl
  | _ => rfl

theorem Effect.pc_eq (h : Effect s i t) : t.pc = s.pc ∨ mayWritePc i = true := by
  cases h with
  | pc q hi hq => exact .inr hi
  | call nnn h => exact .inr rfl
  | ret h0 h => exact .inr rfl
  | _ => exact .inl rfl

theorem Effect.dt_eq (h : Effect s i t) : t.dt = s.dt ∨ ∃ x, i = .setDelay x ∧ t.dt = s.reg x := by
  cases h with
  | setDelay x => exact .inr ⟨x, rfl, rfl⟩
  | _ => exact .inl rfl

theorem Effect.st_eq (h : Effect s i t) : t.st = s.st ∨ ∃ x, i = .setSound x ∧ t.st = s.reg x := by
  cases h with
  | setSound x => exact .inr ⟨x, rfl, rfl⟩
  | _ => exact .inl rfl

theorem Effect.i_eq (h : Effect s i t) :
    t.i = s.i ∨ (∃ nnn, i = .loadIndex nnn) ∨ (∃ x, i = .addIndex x) ∨ ∃ x, i = .fontAddr x := by
  cases h with
  | index w hi => exact .inr hi
  | _ => exact .inl rfl

theorem Effect.sp_eq (h : Effect s i t) : t.sp = s.sp ∨ i = .ret ∨ ∃ nnn, i = .call nnn := by
  cases h with
  | call nnn h => exact .inr (.inr ⟨nnn, rfl⟩)
  | ret h0 h => exact .inr (.inl rfl)
  | _ => exact .inl rfl

theorem Effect.stack_eq (h : Effect s i t) : t.stack = s.stack ∨ ∃ nnn, i = .call nnn := by
  cases h with
  | call nnn h => exact .inr ⟨nnn, rfl⟩
  | _ => exact .inl rfl

theorem Effect.memory_eq (h : Effect s i t) : t.memory = s.memory ∨ (∃ x, i = .bcd x) ∨ ∃ x, i = .storeRegs x := by
  cases h with
  | memory m hi hm => exact .inr hi
  | _ => exact .inl rfl

theorem Effect.fb_eq (h : Effect s i t) : t.fb = s.fb ∨ i = .clear ∨ ∃ x y n, i = .draw x y n := by
  cases h with
  | clear => exact .inr (.inl rfl)
  | draw x y n => exact .inr (.inr ⟨x, y, n, rfl⟩)
  | _ => exact .inl rfl

theorem Effect.draws_eq (h : Effect s i t) : t.draws = s.draws ∨ (∃ x kk, i = .rand x kk) ∧ t.draws = s.draws + 1 := by
  cases h with
  | rand rb x kk => exact .inr ⟨⟨x, kk, rfl⟩, rfl⟩
  | _ => exact .inl rfl

end Fields

/-- `execWith_next_cases` for the core's own execution. -/
theorem exec_next_cases {i : Instr} {s t : State} (he : exec i s = .next t) :
    (∃ c w, faultOf i s = some (c, w) ∧ t = FaultedState c w s) ∨ (faultOf i s = none ∧ Effect s i t) :=
  execWith_next_cases ((exec_eq_execWith i s).symm.trans he)

/-- Settles O16: a fault writes `PC` and the record only, and each other field is written by its own family of `Effect`. -/
theorem fieldsWrittenOnlyByTheirInstructions : Obligations.FieldsWrittenOnlyByTheirInstructions := by
  intro i s t he
  obtain ⟨c, w, hf, rfl⟩ | ⟨-, h⟩ := exec_next_cases he
  · have hfault : faultOf i s ≠ none := by rw [hf]; exact Option.some_ne_none _
    exact ⟨rfl, rfl, fun r _ => rfl, .inr (.inr ⟨hfault, rfl⟩), .inr hfault, .inl rfl, .inl rfl, .inl rfl, .inl rfl,
      .inl rfl, .inl fun a => rfl, .inl rfl⟩
  · exact ⟨h.config_eq, h.keys_eq, fun r hr => h.reg_eq hr, h.pc_eq.imp_right .inl, .inl h.fault_eq, h.dt_eq, h.st_eq,
      h.i_eq, h.sp_eq, h.stack_eq, h.memory_eq.imp_left (State.byteAt_congr h.config_eq), h.fb_eq⟩

/-! ### The flag (rule R21) -/

/-- Settles O17: `VF` changes only where `mayWriteReg` lets it; a writer of the flag leaves the byte of a flag, and every
other instruction there is one that has register 15 among its destinations. -/
theorem flagWrittenOnlyAsListed : Obligations.FlagWrittenOnlyAsListed := by
  intro i s t he
  cases hw : mayWriteReg i vf with
  | false =>
    obtain ⟨-, -, hreg, -⟩ := fieldsWrittenOnlyByTheirInstructions i s t he
    exact .inl (hreg vf hw)
  | true =>
    cases i with
    | add x y | sub x y | subn x y =>
      refine .inr (.inl ⟨x, y, by simp, fun _ => ?_⟩)
      cases he
      rw [aluWriteThenFlag_reg_vf rfl]
      exact flagByte_zero_or_one _
    | shr x y | shl x y =>
      refine .inr (.inl ⟨x, y, by simp, fun hx => ?_⟩)
      cases he
      rw [aluFlagThenWrite_reg_vf rfl hx]
      exact flagByte_zero_or_one _
    | draw x y n =>
      by_cases hb : s.base + n.toNat ≤ 0x1000
      · cases he.symm.trans (exec_draw_of_le x y hb)
        refine .inr (.inr (.inl ⟨x, y, n, rfl, ?_⟩))
        rw [State.reg_vf_setFlag]
        exact flagByte_zero_or_one _
      · cases he.symm.trans (exec_of_faultOf_some (if_pos (Nat.lt_of_not_le hb)))
        exact .inl rfl
    | loadImm x kk | addImm x kk | rand x kk =>
      obtain rfl : vf = x := eq_of_beq hw
      exact .inr (.inr (.inr (.inl ⟨kk, by simp⟩)))
    | move x y | or x y | and x y | xor x y =>
      obtain rfl : vf = x := eq_of_beq hw
      exact .inr (.inr (.inr (.inr (.inl ⟨y, by simp⟩))))
    | loadDelay x | waitKey x =>
      obtain rfl : vf = x := eq_of_beq hw
      exact .inr (.inr (.inr (.inr (.inr (by simp)))))
    | loadRegs x =>
      have hx : 15 ≤ x.toNat := of_decide_eq_true hw
      obtain rfl : x = vf := BitVec.eq_of_toNat_eq (Nat.le_antisymm (Nat.le_of_lt_succ x.isLt) hx)
      exact .inr (.inr (.inr (.inr (.inr (by simp)))))
    | _ => cases hw

/-! ### The invariant (rule R38) -/

/-- A reset state meets the invariant: nothing is listed, called or recorded, and `PC` is the program base. -/
theorem State.resetWith_inv {c : Config} (h : c.wf) : (State.resetWith c).Inv where
  config_wf := h
  fb_length := List.length_replicate
  memory_wf := Memory.wf_nil
  sp_le := Nat.zero_le 15
  pc_le := show (0x200#16 : Word).toNat ≤ 0x10FE by decide
  stack_range := fun _ h1 hk => absurd (h1.trans hk) (Nat.not_succ_le_zero 0)
  fault_pc := fun _ hr => by cases hr

/-- Settles O18: the default configuration is admissible, and reset fills in the rest. -/
theorem resetMeetsInvariant : Obligations.ResetMeetsInvariant :=
  ⟨State.resetWith_inv (by decide), fun _ h => State.resetWith_inv h⟩

/-- A running machine has no record to name its `PC`. -/
theorem State.record_pc_of_running {s : State} (hf : s.fault = none) (p : Word) : ∀ r, s.fault = some r → r.pc = p :=
  fun r hr => by rw [hf] at hr; cases hr

section CallReturn
variable {s : State} (hs : s.Inv)
include hs

/-- A call stores a return address of rule R38's range in the slot it opens. -/
theorem State.Inv.of_call (nnn : Imm12) (h : s.sp.toNat < 15) (hf : s.fault = none) (hlo : 2 ≤ s.pc.toNat)
    (hhi : s.pc.toNat ≤ 0x1000) : ((s.push h).setPc (zextImm nnn)).Inv where
  config_wf := hs.config_wf
  fb_length := hs.fb_length
  memory_wf := hs.memory_wf
  sp_le := by
    have hsp := s.push_sp_toNat h
    rw [State.setPc_sp]; omega
  pc_le := by
    have hn := nnn.isLt
    rw [State.setPc_pc, zextImm_toNat]; omega
  stack_range := fun k h1 hk => by
    have hsp := s.push_sp_toNat h
    rw [State.setPc_sp] at hk
    rw [State.setPc_stack, s.push_stack_getElem h]
    split
    · exact ⟨hlo, hhi⟩
    · exact hs.stack_range k h1 (by omega)
  fault_pc := State.record_pc_of_running hf _

/-- A return takes an address of rule R38's range and closes its slot. -/
theorem State.Inv.of_ret (h0 : s.sp.toNat ≠ 0) (h : s.sp.toNat < 16) (hf : s.fault = none) : (s.pop h).Inv where
  config_wf := hs.config_wf
  fb_length := hs.fb_length
  memory_wf := hs.memory_wf
  sp_le := by
    have hsp := s.pop_sp_toNat h0 h
    omega
  pc_le := by
    obtain ⟨-, hle⟩ := hs.stack_range ⟨s.sp.toNat, h⟩ (Nat.one_le_iff_ne_zero.mpr h0) le_rfl
    exact le_trans hle (by decide)
  stack_range := fun k h1 hk => by
    have hsp := s.pop_sp_toNat h0 h
    exact hs.stack_range k h1 (by omega)
  fault_pc := State.record_pc_of_running hf _

end CallReturn

/-- Every write an instruction makes keeps the invariant, on a state in which a step has advanced `PC`. -/
theorem Effect.inv {s t : State} {i : Instr} (h : Effect s i t) (hs : s.Inv) (hf : s.fault = none)
    (hlo : 2 ≤ s.pc.toNat) (hhi : s.pc.toNat ≤ 0x1000) : t.Inv := by
  cases h with
  | pc q hi hq => exact hs.of_same rfl rfl hs.memory_wf rfl rfl (hq hlo hhi) (State.record_pc_of_running hf q)
  | call nnn h => exact hs.of_call nnn h hf hlo hhi
  | ret h0 h => exact hs.of_ret h0 h hf
  | memory m hi hm => exact hs.of_same rfl rfl (hm hs.memory_wf) rfl rfl hs.pc_le hs.fault_pc
  | clear => exact hs.of_same rfl (List.length_replicate.trans hs.fb_length.symm) hs.memory_wf rfl rfl hs.pc_le hs.fault_pc
  | draw x y n => exact hs.of_same rfl (drawBytes_length _ _ _ _ _ _) hs.memory_wf rfl rfl hs.pc_le hs.fault_pc
  | _ => exact hs.of_same rfl rfl hs.memory_wf rfl rfl hs.pc_le hs.fault_pc

/-- Where a fetch is possible the advance of `PC` keeps the invariant. -/
theorem State.Inv.advance {s : State} (hs : s.Inv) (hf : s.fault = none) (hp : s.pc.toNat ≤ 0xFFE) : s.advance.Inv := by
  have hpc := State.advance_pc_toNat hp
  exact hs.of_same rfl rfl hs.memory_wf rfl rfl (by omega) (State.record_pc_of_running hf _)

/-- A state that takes a fault at its own `PC` keeps the invariant (rule R202). -/
theorem State.Inv.faulted {s : State} (hs : s.Inv) (c : FaultCause) (w : Word) :
    State.Inv { s with fault := some ⟨c, s.pc, w⟩ } :=
  hs.of_same rfl rfl hs.memory_wf rfl rfl hs.pc_le fun r hr => by cases hr; rfl

/-- A step keeps the invariant and the configuration, whatever its random byte: of the four ways it can go, only an
instruction's write has something to show. -/
theorem stepWith_keeps_inv {rb : Byte} {s t : State} (hs : s.Inv) (h : stepWith rb s = .next t) :
    t.Inv ∧ t.config = s.config := by
  obtain ⟨-, hc⟩ | ⟨-, -, hc⟩ | ⟨hf, hp, i, -, hc⟩ | ⟨hf, hp, w, -, hc⟩ := cycle_cases (execWith rb) s
  · cases h.symm.trans hc
    exact ⟨hs, rfl⟩
  · cases h.symm.trans hc
    exact ⟨hs.faulted _ _, rfl⟩
  · obtain ⟨c, w, -, rfl⟩ | ⟨-, he⟩ := execWith_next_cases (hc.symm.trans h)
    · rw [faultedState_advance]
      exact ⟨hs.faulted c w, rfl⟩
    · have hpc := State.advance_pc_toNat hp
      exact ⟨he.inv (hs.advance hf hp) hf (by omega) (by omega), he.config_eq⟩
  · cases h.symm.trans hc
    exact ⟨hs.advance hf hp, rfl⟩

/-- The core's own step is a `step` command, with the next free draw for its byte. -/
theorem step_eq_stepWith (s : State) : step s = stepWith (Config.randomByte s.draws) s :=
  cycle_congr fun i _ => exec_eq_execWith i s.advance

/-- Settles O19: the core's step is a `step` command, which keeps the invariant. -/
theorem stepKeepsInvariant : Obligations.StepKeepsInvariant := by
  intro s t hs h
  obtain ⟨ht, -⟩ := stepWith_keeps_inv hs ((step_eq_stepWith s).symm.trans h)
  exact ht

/-- From a state that meets the invariant a `step` command goes to a next state: a Faulted machine stays, and `SP` names a
slot. -/
theorem exists_stepWith_next {s : State} (hs : s.Inv) (rb : Byte) : ∃ t, stepWith rb s = .next t := by
  by_cases hf : s.fault = none
  · obtain ⟨t, ht, -⟩ := stepCompletesOrKeepsNothing s rb hf hs.sp_le
    exact ⟨t, ht⟩
  · exact ⟨s, cycle_of_faulted hf⟩

/-- Settles O59: a command is a reset, a step, or a write to memory, timers and keys. -/
theorem commandsKeepInvariant : Obligations.CommandsKeepInvariant := by
  intro s c hs
  obtain ⟨-, hc⟩ | ⟨rb, -, hc⟩ | ⟨t, hc, ht, hm⟩ := command_cases c s
  case inl =>
    have hreset : (State.resetWith s.config).Inv := State.resetWith_inv hs.config_wf
    exact ⟨_, hc, hreset.of_same rfl rfl hreset.memory_wf rfl rfl hreset.pc_le hreset.fault_pc, rfl⟩
  case inr.inl =>
    obtain ⟨t, ht⟩ := exists_stepWith_next hs rb
    exact ⟨t, hc.trans ht, stepWith_keeps_inv hs ht⟩
  case inr.inr =>
    have hwf := hm hs.memory_wf
    refine ⟨t, hc, ?_, by rw [ht]⟩
    rw [ht]
    exact hs.of_same rfl rfl hwf rfl rfl hs.pc_le hs.fault_pc

/-- A schedule runs to its end from every state that meets the invariant. -/
theorem runCommands_keeps_inv (cs : List Command) {s : State} (hs : s.Inv) :
    ∃ t, runCommands cs s = .next t ∧ t.Inv ∧ t.config = s.config := by
  induction cs generalizing s with
  | nil => exact ⟨s, rfl, hs, rfl⟩
  | cons c cs ih =>
    obtain ⟨u, hu, huinv, hucfg⟩ := commandsKeepInvariant s c hs
    obtain ⟨t, ht, htinv, htcfg⟩ := ih huinv
    exact ⟨t, (runCommands_cons_of_next hu cs).trans ht, htinv, htcfg.trans hucfg⟩

/-- Settles O20: power-on meets the invariant, and a schedule keeps it. -/
theorem schedulesRunAndKeepInvariant : Obligations.SchedulesRunAndKeepInvariant :=
  fun _ cs h => runCommands_keeps_inv cs (State.resetWith_inv h)

/-! ### The random byte of the core's own step -/

/-- Settles O10: `exec` is `execWith` with the next free draw, and of the families of `Effect` only `rand` counts a draw. -/
theorem coreStepDrawsOneFreeByte : Obligations.CoreStepDrawsOneFreeByte := by
  refine fun s => ⟨step_eq_stepWith s, fun t h => ?_⟩
  obtain ⟨-, hc⟩ | ⟨-, -, hc⟩ | ⟨-, -, i, hd, hc⟩ | ⟨-, -, w, -, hc⟩ := cycle_cases exec s
  · cases h.symm.trans hc
    exact .inl rfl
  · cases h.symm.trans hc
    exact .inl rfl
  · obtain ⟨c, w, -, rfl⟩ | ⟨-, he⟩ := exec_next_cases (hc.symm.trans h)
    · exact .inl rfl
    · rw [hd]
      refine he.draws_eq.imp_right ?_
      rintro ⟨⟨x, kk, rfl⟩, hdraws⟩
      exact ⟨⟨x, kk, rfl⟩, hdraws⟩
  · cases h.symm.trans hc
    exact .inl rfl

/-- Settles O38: the byte `rand` masks is the free draw numbered by the state it runs on. -/
theorem coreRandUsesFreeDraw : Obligations.CoreRandUsesFreeDraw := fun x kk s =>
  ⟨_, rfl, reg_randWith_self _ x kk s, fun _ hr => reg_randWith_of_ne _ kk s hr, rfl, State.byteAt_congr rfl rfl⟩

end Sys2Proof.Machine
end

section
/-! SUPPORT. PROOFS of the statements about what follows on what (spec 40_step_and_decode.md, 41_control_flow.md,
42_alu.md, 43_index_memory.md, 70_reset_and_hazards.md): the end of a run, a word placed or stored and then fetched, call
and return, store and load, the ALU's table, read-back. -/

namespace Sys2Proof.Machine

/-! ### The end of a run (rule R235) -/

theorem finished_iff (s : State) :
    s.finished = true ↔ s.pc.toNat ≤ 0xFFE ∧
      (s.byteAt s.pc.toNat).toNat * 256 + (s.byteAt (s.pc.toNat + 1)).toNat = 0x1000 + s.pc.toNat := by
  rw [State.finished, Bool.and_eq_true, decide_eq_true_iff, beq_iff_eq]

/-- An address below 4096 is held exactly in the address field of a jump. -/
theorem zextImm_setWidth {w : Word} (h : w.toNat < 4096) : zextImm (w.setWidth 12) = w := by
  apply BitVec.eq_of_toNat_eq
  rw [zextImm_toNat, BitVec.toNat_setWidth, Nat.mod_eq_of_lt h]

/-- Settles O11: the word at `PC` is the jump to `PC`, and that jump undoes the step's own advance. -/
theorem finishedRunIsFixedPoint : Obligations.FinishedRunIsFixedPoint := by
  intro s hf hfin
  obtain ⟨hp, hw⟩ := (finished_iff s).mp hfin
  have hlt : s.pc.toNat < 4096 := by omega
  obtain ⟨henc, -⟩ := jumpSetsPc (s.pc.setWidth 12)
  rw [BitVec.toNat_setWidth, Nat.mod_eq_of_lt hlt] at henc
  calc step s = exec (.jump (s.pc.setWidth 12)) s.advance := cycle_of_encodes henc hf hp hw
    _ = .next (s.advance.setPc (zextImm (s.pc.setWidth 12))) := rfl
    _ = .next (s.advance.setPc s.pc) := by rw [zextImm_setWidth hlt]
    _ = .next s := rfl

/-! ### A word in memory and the fetch that reads it (rules R52, R60, R91) -/

theorem fetchWord_of_bytes {s : State} {a : Nat} (ha : s.pc.toNat = a) :
    s.fetchWord = wordOfBytes (s.byteAt a) (s.byteAt (a + 1)) := ha ▸ rfl

/-- The state `withFetchWord` stores into can fetch, and both bytes of its next word exist. -/
theorem readyToFetch_pc_le (s : State) : s.readyToFetch.pc.toNat ≤ 0xFFE := by
  unfold State.readyToFetch
  split
  next h => exact of_decide_eq_true h
  next => show (0x200#16 : Word).toNat ≤ 0xFFE; decide

theorem withFetchWord_eq_placeWord (s : State) (w : Word) : s.withFetchWord 16 w.toNat = s.placeWord w := by
  rw [State.withFetchWord, Nat.mod_eq_of_lt w.isLt, BitVec.ofNat_toNat, BitVec.setWidth_eq]

theorem placeWord_pc (s : State) (w : Word) : (s.placeWord w).pc = s.readyToFetch.pc := by
  rw [State.placeWord, State.storeBytes_eq]

theorem placeWord_fault (s : State) (w : Word) : (s.placeWord w).fault = none := by
  rw [State.placeWord, State.storeBytes_fault]
  rfl

/-- The placed word is the fetched one. -/
theorem placeWord_fetchWord {s : State} (w : Word) (hwf : Memory.wf s.config.font s.memory) :
    (s.placeWord w).fetchWord = w := by
  have hp := readyToFetch_pc_le s
  have hrange : s.readyToFetch.pc.toNat + [highByte w, lowByte w].length ≤ Config.memSize := Nat.add_le_add_right hp 2
  have hhigh := State.byteAt_storeBytes_of_getElem? (s := s.readyToFetch) (k := 0) (b := highByte w) hwf hrange rfl
  have hlow := State.byteAt_storeBytes_of_getElem? (s := s.readyToFetch) (k := 1) (b := lowByte w) hwf hrange rfl
  rw [fetchWord_of_bytes (congrArg BitVec.toNat (placeWord_pc s w))]
  calc wordOfBytes _ _ = wordOfBytes (highByte w) (lowByte w) := congrArg₂ wordOfBytes hhigh hlow
    _ = w := wordOfBytes_high_low w

theorem decodeTableWord_of_decodeWord {w : Word} {i : Instr} (h : decodeWord w = .instr i) :
    decodeTableWord 16 w.toNat = some i := by
  simp only [decodeTableWord, Nat.mod_eq_of_lt w.isLt, BitVec.ofNat_toNat, BitVec.setWidth_eq, decodeBytes,
    wordOfBytes_high_low, h]

/-- Settles O12: the placed state is not Faulted and can fetch, and the word it fetches is the placed one. -/
theorem placedWordRunsNext : Obligations.PlacedWordRunsNext := by
  intro s w i hwf hd
  refine ⟨?_, decodeTableWord_of_decodeWord hd⟩
  rw [withFetchWord_eq_placeWord]
  have hp : (s.placeWord w).pc.toNat ≤ 0xFFE := placeWord_pc s w ▸ readyToFetch_pc_le s
  have hfetch : decodeWord (s.placeWord w).fetchWord = .instr i := by rw [placeWord_fetchWord w hwf, hd]
  exact cycle_of_instr (placeWord_fault s w) hp hfetch

/-- Settles O13: the two bytes at `PC` are two of the stored registers. -/
theorem storedInstructionIsFetchedNext : Obligations.StoredInstructionIsFetchedNext := by
  intro s x k hwf hrange hk hpc
  have hfit : s.base + (s.regsUpTo x).length ≤ Config.memSize := by
    rw [State.regsUpTo_length]
    exact Nat.succ_le_succ hrange
  have hbyte : ∀ j, j ≤ x.toNat →
      (s.storeBytes s.base (s.regsUpTo x)).byteAt (s.base + j) = s.reg (BitVec.ofNat 4 j) := by
    intro j hj
    refine State.byteAt_storeBytes_of_getElem? hwf hfit ?_
    rw [State.regsUpTo_getElem?, if_pos (Nat.lt_succ_of_le hj)]
  have hpc' : (s.storeBytes s.base (s.regsUpTo x)).pc = s.pc := by rw [State.storeBytes_eq]
  refine ⟨_, exec_storeRegs_of_le hrange, hpc', ?_⟩
  rw [fetchWord_toNat, hpc', hpc]
  exact congrArg₂ (fun a b : Byte => a.toNat * 256 + b.toNat) (hbyte k (by omega)) (hbyte (k + 1) hk)

/-! ### Call and return (rules R25, R109) -/

/-- Settles O24: an `SP` above 15 names no slot to read. -/
theorem returnBeyondStackStops : Obligations.ReturnBeyondStackStops :=
  fun _ h => exec_ret_of_no_slot h

/-- Settles O25: the return reads the slot the call wrote and takes `SP` back by the one the call added. -/
theorem callThenReturnComesBack : Obligations.CallThenReturnComesBack := by
  intro s nnn h
  have hsp := s.push_sp_toNat h
  have h0 : (s.push h).sp.toNat ≠ 0 := by omega
  have h16 : (s.push h).sp.toNat < 16 := by omega
  have hslot : (s.push h).stack[(s.push h).sp.toNat] = s.pc :=
    (s.push_stack_getElem h ⟨_, h16⟩).trans (if_pos hsp)
  have hdepth : s.sp + 1#8 - 1#8 = s.sp := BitVec.add_sub_cancel _ _
  have hret := exec_ret_of_slot (s := ((s.push h).setPc (zextImm nnn)).advance) h0 h16
  refine ⟨_, _, exec_call_of_lt nnn h, hret, ?restored, State.byteAt_congr rfl rfl, fun k hk => ?otherSlots⟩
  case restored =>
    show ({ s with
      pc := (s.push h).stack[(s.push h).sp.toNat], sp := s.sp + 1#8 - 1#8, stack := (s.push h).stack } : State) =
      { s with stack := (s.push h).stack }
    rw [hslot, hdepth]
  case otherSlots => exact (s.push_stack_getElem h k).trans (if_neg hk)

/-! ### Store and load (rule R146) -/

/-- Settles O43: the bytes the load reads are the ones the store wrote. -/
theorem storeThenLoadRestoresRegisters : Obligations.StoreThenLoadRestoresRegisters := by
  intro s x hwf hrange
  obtain ⟨-, hstore⟩ := storeRegsCopiesRangeToMemory x
  obtain ⟨-, hload⟩ := loadRegsCopiesRangeFromMemory x
  obtain ⟨t, ht, hbyte, -, hframe⟩ := (hstore s).1 hwf hrange
  have hbase : t.base = s.base := by rw [hframe]; rfl
  refine ⟨t, ht, fun u hi hsame => ?_⟩
  have hbaseu : u.base = t.base := congrArg BitVec.toNat hi
  obtain ⟨v, hv, hreg, -⟩ := (hload u).1 (by rw [hbaseu, hbase]; exact hrange)
  refine ⟨v, hv, fun r hr => ?_⟩
  calc v.reg r = u.byteAt (u.base + r.toNat) := (hreg r).trans (if_pos hr)
    _ = t.byteAt (t.base + r.toNat) := by rw [hbaseu, hsame r hr]
    _ = s.reg r := by rw [hbase, hbyte r hr]

/-! ### The ALU's table (rule R120) -/

theorem shiftedOutLow_eq_getLsbD (a : Byte) : shiftedOutLow a = a.getLsbD 0 := by
  rw [shiftedOutLow, BitVec.getLsbD, Nat.testBit_zero]

theorem shiftedOutHigh_eq_getLsbD (a : Byte) : shiftedOutHigh a = a.getLsbD 7 := by
  rw [shiftedOutHigh, BitVec.getLsbD, Nat.testBit_eq_decide_div_mod_eq]

/-- Settles O29: row by row; the bits shifted out are bits 0 and 7. -/
theorem aluComputesTheTable : Obligations.AluComputesTheTable := fun a b =>
  ⟨⟨rfl, rfl⟩, ⟨rfl, rfl⟩, ⟨rfl, rfl⟩, ⟨rfl, rfl⟩, ⟨aluResult_add_toNat a b, rfl⟩, ⟨aluResult_sub_toNat a b, rfl⟩,
    ⟨aluResult_shr_toNat a b, congrArg some (shiftedOutLow_eq_getLsbD a)⟩,
    ⟨aluResult_shl_toNat a b, congrArg some (shiftedOutHigh_eq_getLsbD a)⟩⟩

/-! ### Read-back (rule R36) -/

/-- Settles O58: read-back copies the fields and lists the bytes of memory. -/
theorem readBackChangesNothing : Obligations.ReadBackChangesNothing := by
  refine fun s => ⟨rfl, readBack s, rfl, ?length, fun a ha => ?bytes, readBack_cells s, readBack_width s,
    readBack_height s, readBack_keys s, readBack_fault s, readBack_v s, readBack_i s, readBack_pc s, readBack_sp s,
    readBack_stack s, readBack_dt s, readBack_st s⟩
  case length => rw [readBack_memory, State.memoryImage_length]
  case bytes => rw [readBack_memory, s.memoryImage_getElem? ha]

end Sys2Proof.Machine
end

section
/-! SUPPORT. PROOFS of the statements about a sprite as a mask (spec 44_display.md rules R165, R167), with the lemmas they
rest on: a fold of pixels on cells that are all different, and the cells of a sprite, which differ where the display is large
enough. -/

namespace Sys2Proof.Machine

/-! ### Pixels on different cells -/

section Fold
variable {α : Type} (cell : α → Nat) (bit : α → Bool)

/-- The pixels of a list that invert the cell `k`. -/
def maskOf (l : List α) (k : Nat) : Bool := l.any fun a => decide (cell a = k) && bit a

theorem maskOf_eq_true_iff (l : List α) (k : Nat) :
    maskOf cell bit l k = true ↔ ∃ a ∈ l, cell a = k ∧ bit a = true := by
  simp only [maskOf, List.any_eq_true, Bool.and_eq_true, decide_eq_true_eq]

theorem maskOf_eq_false {l : List α} {k : Nat} (h : ∀ a ∈ l, k ≠ cell a) : maskOf cell bit l k = false := by
  rw [← Bool.not_eq_true, maskOf_eq_true_iff]
  rintro ⟨a, ha, rfl, -⟩
  exact h a ha rfl

/-- A plotted pixel leaves the cells of the others on the display. -/
theorem cells_lt_plotPixel {a : α} {l : List α} {p : Plot} (hlt : ∀ b ∈ a :: l, cell b < p.1.length) :
    ∀ b ∈ l, cell b < (plotPixel (cell a) (bit a) p).1.length := fun b hb => by
  rw [plotPixel_length]
  exact hlt b (List.mem_cons_of_mem a hb)

theorem maskOf_cons (a : α) (l : List α) (k : Nat) :
    maskOf cell bit (a :: l) k = (decide (cell a = k) && bit a || maskOf cell bit l k) := rfl

/-- Plotting pixels on different cells is XOR with their mask. -/
theorem foldl_plotPixel_getD {l : List α} (hne : l.Pairwise fun a b => cell a ≠ cell b) {p : Plot}
    (hlt : ∀ a ∈ l, cell a < p.1.length) (k : Nat) :
    (l.foldl (fun q a => plotPixel (cell a) (bit a) q) p).1.getD k false = (p.1.getD k false ^^ maskOf cell bit l k) := by
  induction l generalizing p with
  | nil => exact (Bool.xor_false _).symm
  | cons a l ih =>
    obtain ⟨ha, hl⟩ := List.pairwise_cons.mp hne
    have hrest := cells_lt_plotPixel cell bit hlt
    rw [List.foldl_cons, ih hl hrest, plotPixel_getD _ _ p (hlt a List.mem_cons_self)]
    by_cases hk : k = cell a
    · subst hk
      simp [maskOf_cons, maskOf_eq_false cell bit ha]
    · simp [maskOf_cons, hk, Ne.symm hk]

/-- On different cells every pixel sees the display as it was before the first, so the collision is told from that. -/
theorem foldl_plotPixel_hit {l : List α} (hne : l.Pairwise fun a b => cell a ≠ cell b) {p : Plot}
    (hlt : ∀ a ∈ l, cell a < p.1.length) :
    (l.foldl (fun q a => plotPixel (cell a) (bit a) q) p).2 = (p.2 || l.any fun a => bit a && p.1.getD (cell a) false) := by
  induction l generalizing p with
  | nil => exact (Bool.or_false _).symm
  | cons a l ih =>
    obtain ⟨ha, hl⟩ := List.pairwise_cons.mp hne
    have hrest := cells_lt_plotPixel cell bit hlt
    have hseen : ∀ b ∈ l, (plotPixel (cell a) (bit a) p).1.getD (cell b) false = p.1.getD (cell b) false := by
      intro b hb
      rw [plotPixel_getD _ _ p (hlt a List.mem_cons_self), decide_eq_false (ha b hb).symm, Bool.false_and, Bool.xor_false]
    have hany : (l.any fun b => bit b && (plotPixel (cell a) (bit a) p).1.getD (cell b) false) =
        l.any fun b => bit b && p.1.getD (cell b) false := by
      rw [Bool.eq_iff_iff, List.any_eq_true, List.any_eq_true]
      exact exists_congr fun b => and_congr_right fun hb => by rw [hseen b hb]
    rw [List.foldl_cons, ih hl hrest, plotPixel_hit, hany, List.any_cons, Bool.or_assoc]

end Fold

/-! ### The pixels of a sprite (rules R161, R165) -/

/-- The rows and columns of a sprite of `n` bytes, in the order the plotter takes them. -/
def spritePixels (n : Nat) : List (Nat × Nat) := List.range n ×ˢ List.range Config.spriteWidth

theorem mem_spritePixels {n : Nat} {rc : Nat × Nat} : rc ∈ spritePixels n ↔ rc.1 < n ∧ rc.2 < 8 := by
  rw [spritePixels, List.mem_product, List.mem_range, List.mem_range]

/-- The mask of rule R165: the sprite bits that fall on the cell `j`. -/
def spriteMask (W H x y : Nat) (bytes : List Byte) (j : Nat) : Bool :=
  maskOf (fun rc => pixelCell W H x y rc.1 rc.2) (fun rc => spriteBit (bytes.getD rc.1 0#8) rc.2)
    (spritePixels bytes.length) j

section Sprite
variable {W H x y : Nat} {bytes : List Byte} {fb : List Bool}

theorem spriteMask_eq_any (j : Nat) :
    spriteMask W H x y bytes j = (List.range bytes.length).any fun r => (List.range 8).any fun c =>
      decide ((y + r) % H * W + (x + c) % W = j) && (bytes.getD r 0#8).getLsbD (7 - c) := by
  simp only [spriteMask, maskOf, spritePixels, SProd.sprod, List.product, List.any_flatMap, List.any_map]
  rfl

variable (hW : 8 ≤ W) (hH : 1 ≤ H) (hn : bytes.length ≤ H) (hfb : fb.length = W * H)

include hW hn in
/-- With 8 columns and a row for each byte, no two pixels of the sprite fall on one cell. -/
theorem spritePixels_pairwise :
    (spritePixels bytes.length).Pairwise fun a b => pixelCell W H x y a.1 a.2 ≠ pixelCell W H x y b.1 b.2 := by
  have hnodup : (spritePixels bytes.length).Nodup := List.nodup_range.product List.nodup_range
  refine hnodup.imp_of_mem fun ha hb hab hcell => hab ?_
  obtain ⟨ha1, ha2⟩ := mem_spritePixels.mp ha
  obtain ⟨hb1, hb2⟩ := mem_spritePixels.mp hb
  obtain ⟨hr, hc⟩ := pixelCell_inj (by omega) (by omega) (by omega) (by omega) hcell
  exact Prod.ext hr hc

include hW hH hn hfb

theorem drawBytes_getD (j : Nat) :
    (drawBytes W H x y bytes fb).1.getD j false = (fb.getD j false ^^ spriteMask W H x y bytes j) := by
  rw [drawBytes_eq_foldl_plotPixel]
  refine foldl_plotPixel_getD _ _ (spritePixels_pairwise hW hn) (fun rc _ => ?_) j
  rw [hfb]
  exact pixelCell_lt (by omega) hH x y rc.1 rc.2

theorem drawBytes_hit :
    (drawBytes W H x y bytes fb).2 = (spritePixels bytes.length).any fun rc =>
      spriteBit (bytes.getD rc.1 0#8) rc.2 && fb.getD (pixelCell W H x y rc.1 rc.2) false := by
  rw [drawBytes_eq_foldl_plotPixel]
  refine (foldl_plotPixel_hit _ _ (spritePixels_pairwise hW hn) fun rc _ => ?_).trans (Bool.false_or _)
  rw [hfb]
  exact pixelCell_lt (by omega) hH x y rc.1 rc.2

/-- The collision is the overlap of the display before the draw with the mask. -/
theorem drawBytes_hit_eq_overlap :
    (drawBytes W H x y bytes fb).2 =
      (List.range (W * H)).any fun j => fb.getD j false && spriteMask W H x y bytes j := by
  rw [drawBytes_hit hW hH hn hfb, Bool.eq_iff_iff]
  simp only [List.any_eq_true, Bool.and_eq_true, spriteMask, maskOf_eq_true_iff, List.mem_range]
  constructor
  · rintro ⟨rc, hrc, hbit, hon⟩
    exact ⟨_, pixelCell_lt (by omega) hH x y rc.1 rc.2, hon, rc, hrc, rfl, hbit⟩
  · rintro ⟨_, -, hon, rc, hrc, rfl, hbit⟩
    exact ⟨rc, hrc, hbit, hon⟩

/-- A second plot of the same sprite undoes the first (rule R167). -/
theorem drawBytes_drawBytes : (drawBytes W H x y bytes (drawBytes W H x y bytes fb).1).1 = fb := by
  have hlen : (drawBytes W H x y bytes fb).1.length = W * H := by rw [drawBytes_length, hfb]
  refine List.ext_getElem (by rw [drawBytes_length, drawBytes_length]) fun j h1 h2 => ?_
  rw [← List.getD_eq_getElem _ false h1, ← List.getD_eq_getElem _ false h2, drawBytes_getD hW hH hn hlen,
    drawBytes_getD hW hH hn hfb, Bool.xor_assoc, Bool.xor_self, Bool.xor_false]

end Sprite

/-! ### The statements -/

/-- Settles O47: no two pixels meet, so the plot is the XOR with the mask and the collision their overlap. -/
theorem spriteIsXorOfMask : Obligations.SpriteIsXorOfMask := by
  intro W H x y bytes fb hW hH hn hfb mask
  have hmask : spriteMask W H x y bytes = mask := funext spriteMask_eq_any
  refine ⟨by rw [drawBytes_length, hfb], fun j _ => ?_, ?_⟩
  · rw [drawBytes_getD hW hH hn hfb, hmask]
  · rw [drawBytes_hit_eq_overlap hW hH hn hfb, hmask]

theorem loadBytes_getD (s : State) (a : Nat) {n k : Nat} (hk : k < n) : (s.loadBytes a n).getD k 0#8 = s.byteAt (a + k) := by
  rw [List.getD_eq_getElem?_getD, State.loadBytes_getElem?, if_pos hk, Option.getD_some]

/-- A state that differs in the display and in `VF` only draws the same sprite at the same place. -/
theorem spritePlot_setFb_setFlag {x y : Reg} (hx : x ≠ vf) (hy : y ≠ vf) (n : Nibble) (s : State) (fb : List Bool)
    (f : Bool) :
    spritePlot x y n ((s.setFb fb).setFlag f) =
      drawBytes s.config.width s.config.height (s.reg x).toNat (s.reg y).toNat (s.loadBytes s.base n.toNat) fb := by
  rw [spritePlot, State.reg_setFlag, if_neg hx, State.reg_setFlag, if_neg hy]
  rfl

/-- Settles O48: the second draw plots the same sprite at the same place, so it takes the mask off again, and its collision
is told pixel by pixel from the display the first left. -/
theorem doubleDrawRestoresDisplay : Obligations.DoubleDrawRestoresDisplay := by
  intro s x y n hx hy hW hH hn hfb hrange
  have hbytes : (s.loadBytes s.base n.toNat).length = n.toNat := s.loadBytes_length s.base n.toNat
  have hrows : (s.loadBytes s.base n.toNat).length ≤ s.config.height := hbytes.trans_le hn
  have hfb' : (spritePlot x y n s).1.length = s.config.width * s.config.height := (drawBytes_length _ _ _ _ _ _).trans hfb
  have hsecond := spritePlot_setFb_setFlag hx hy n s (spritePlot x y n s).1 (spritePlot x y n s).2
  refine ⟨_, _, exec_draw_of_le x y hrange, exec_draw_of_le x y hrange, ?restored, ?flag⟩
  case restored =>
    rw [hsecond]
    exact drawBytes_drawBytes hW hH hrows hfb
  case flag =>
    rw [State.reg_vf_setFlag, flagByte_eq_one, hsecond, drawBytes_hit hW hH hrows hfb', hbytes]
    simp only [List.any_eq_true, mem_spritePixels, Bool.and_eq_true, Prod.exists, and_assoc]
    refine exists_congr fun r => exists_congr fun c => and_congr_right fun hr => and_congr_right fun _ => ?_
    rw [loadBytes_getD s s.base hr]
    rfl

end Sys2Proof.Machine
end
